-- ==== Sys2Proof/Word.lean ====
section
/-!
DEFINITION. The word types of the division core (spec/00_scope.md R6, R7; spec/10_state.md R20).
Bit 0 is the least significant bit of every vector (R7), which is the numbering of `BitVec`.
-/

namespace Sys2Proof

/-- The width of each operand port and of the `rt` port: `XLEN = 64` bits (R6). -/
abbrev Word := BitVec 64

/-- The operand and result of a 32-bit operation (`W = 32`, R6, R21). -/
abbrev HalfWord := BitVec 32

/-- The operation-select word `op[5:0]` (R20, R50). -/
abbrev Select := BitVec 6

end Sys2Proof
end

