-- ==== Sys2Proof/Config.lean ====
section
/-!
DEFINITION. The implementation parameters of spec/00_scope.md R6, each with the one value the rule gives it.
R6: "No parameter is left open for the model to take as an argument", so nothing here is opaque and there is no free
value in this model (spec/93_implementation_defined.md: every open point of the document is `defined`, `refuse` or out of scope).
-/

namespace Sys2Proof.Config

/-- `XLEN`: the width in bits of the operand ports and of `rt` (R6). -/
abbrev xlen : Nat := 64

/-- The reference width of `overflow32` (R6). -/
abbrev referenceWidth : Nat := 32

/-- The number of operand slots `ra`, `rb`, `rc` (R6). -/
abbrev operandSlots : Nat := 3

/-- The number of condition-register slots `cr0` to `cr7` (R6). -/
abbrev conditionSlots : Nat := 8

/-- The width of a condition-register slot: `lt`, `gt`, `eq`, `so` (R6, R26). -/
abbrev conditionSlotWidth : Nat := 4

/-- The width of the operation-select word (R6, R50). -/
abbrev selectWidth : Nat := 6

/-- The number of instructions (R6, R56). -/
abbrev instructionCount : Nat := 36

end Sys2Proof.Config
end

