-- ==== Sys2Proof/Syntax.lean ====
section
/-!
DEFINITION. The instructions (spec/30_encoding.md R56) and the fields of the operation-select word (R51).
An instruction has no operand field: it reads the values on the ports `ra` and `rb` (R50, R53, spec/10_state.md R21).
A constructor is its row's mnemonic, with `Rc` for the record marker `.`.
-/

namespace Sys2Proof

/-- The 36 instructions of R56, one constructor per row of spec/opcode_table.json. -/
inductive Instr where
  /-- `divd`: plain divide, signed, `W = 64`, `OE = 0`, `Rc = 0` (R130). -/
  | divd
  /-- `divd.`: plain divide, signed, `W = 64`, `OE = 0`, `Rc = 1` (R130). -/
  | divdRc
  /-- `divdo`: plain divide, signed, `W = 64`, `OE = 1`, `Rc = 0` (R130). -/
  | divdo
  /-- `divdo.`: plain divide, signed, `W = 64`, `OE = 1`, `Rc = 1` (R130). -/
  | divdoRc
  /-- `divdu`: plain divide, unsigned, `W = 64`, `OE = 0`, `Rc = 0` (R131). -/
  | divdu
  /-- `divdu.`: plain divide, unsigned, `W = 64`, `OE = 0`, `Rc = 1` (R131). -/
  | divduRc
  /-- `divduo`: plain divide, unsigned, `W = 64`, `OE = 1`, `Rc = 0` (R131). -/
  | divduo
  /-- `divduo.`: plain divide, unsigned, `W = 64`, `OE = 1`, `Rc = 1` (R131). -/
  | divduoRc
  /-- `divw`: plain divide, signed, `W = 32`, `OE = 0`, `Rc = 0` (R132). -/
  | divw
  /-- `divw.`: plain divide, signed, `W = 32`, `OE = 0`, `Rc = 1` (R132). -/
  | divwRc
  /-- `divwo`: plain divide, signed, `W = 32`, `OE = 1`, `Rc = 0` (R132). -/
  | divwo
  /-- `divwo.`: plain divide, signed, `W = 32`, `OE = 1`, `Rc = 1` (R132). -/
  | divwoRc
  /-- `divwu`: plain divide, unsigned, `W = 32`, `OE = 0`, `Rc = 0` (R133). -/
  | divwu
  /-- `divwu.`: plain divide, unsigned, `W = 32`, `OE = 0`, `Rc = 1` (R133). -/
  | divwuRc
  /-- `divwuo`: plain divide, unsigned, `W = 32`, `OE = 1`, `Rc = 0` (R133). -/
  | divwuo
  /-- `divwuo.`: plain divide, unsigned, `W = 32`, `OE = 1`, `Rc = 1` (R133). -/
  | divwuoRc
  /-- `divde`: extended divide, signed, `W = 64`, `OE = 0`, `Rc = 0` (R114). -/
  | divde
  /-- `divde.`: extended divide, signed, `W = 64`, `OE = 0`, `Rc = 1` (R114). -/
  | divdeRc
  /-- `divdeo`: extended divide, signed, `W = 64`, `OE = 1`, `Rc = 0` (R114). -/
  | divdeo
  /-- `divdeo.`: extended divide, signed, `W = 64`, `OE = 1`, `Rc = 1` (R114). -/
  | divdeoRc
  /-- `divdeu`: extended divide, unsigned, `W = 64`, `OE = 0`, `Rc = 0` (R115). -/
  | divdeu
  /-- `divdeu.`: extended divide, unsigned, `W = 64`, `OE = 0`, `Rc = 1` (R115). -/
  | divdeuRc
  /-- `divdeuo`: extended divide, unsigned, `W = 64`, `OE = 1`, `Rc = 0` (R115). -/
  | divdeuo
  /-- `divdeuo.`: extended divide, unsigned, `W = 64`, `OE = 1`, `Rc = 1` (R115). -/
  | divdeuoRc
  /-- `divwe`: extended divide, signed, `W = 32`, `OE = 0`, `Rc = 0` (R116). -/
  | divwe
  /-- `divwe.`: extended divide, signed, `W = 32`, `OE = 0`, `Rc = 1` (R116). -/
  | divweRc
  /-- `divweo`: extended divide, signed, `W = 32`, `OE = 1`, `Rc = 0` (R116). -/
  | divweo
  /-- `divweo.`: extended divide, signed, `W = 32`, `OE = 1`, `Rc = 1` (R116). -/
  | divweoRc
  /-- `divweu`: extended divide, unsigned, `W = 32`, `OE = 0`, `Rc = 0` (R117). -/
  | divweu
  /-- `divweu.`: extended divide, unsigned, `W = 32`, `OE = 0`, `Rc = 1` (R117). -/
  | divweuRc
  /-- `divweuo`: extended divide, unsigned, `W = 32`, `OE = 1`, `Rc = 0` (R117). -/
  | divweuo
  /-- `divweuo.`: extended divide, unsigned, `W = 32`, `OE = 1`, `Rc = 1` (R117). -/
  | divweuoRc
  /-- `modsd`: modulo, signed, `W = 64`, `OE = 0`, `Rc = 0` (R140). -/
  | modsd
  /-- `modud`: modulo, unsigned, `W = 64`, `OE = 0`, `Rc = 0` (R141). -/
  | modud
  /-- `modsw`: modulo, signed, `W = 32`, `OE = 0`, `Rc = 0` (R142). -/
  | modsw
  /-- `moduw`: modulo, unsigned, `W = 32`, `OE = 0`, `Rc = 0` (R143). -/
  | moduw
  deriving DecidableEq, Repr

/-- The field `K` of `op` (R51): the kind of operation; `11` names none. -/
inductive Kind where
  | plainDivide
  | extendedDivide
  | modulo
  | reserved
  deriving DecidableEq, Repr

/-- The field `L` of `op` (R51): the width `W` of the operation. -/
inductive Width where
  | w32
  | w64
  deriving DecidableEq, Repr

/-- The field `S` of `op` (R51): how operands are read as integers. -/
inductive Signedness where
  | signed
  | unsigned
  deriving DecidableEq, Repr

/-- The fields `Rc`, `OE`, `S`, `L`, `K` of a select word (R51). Every one of the 64 words is one value of this type. -/
structure SelectFields where
  /-- `Rc`: the record form, which carries `cr0`. -/
  record : Bool
  /-- `OE`: the overflow-reporting form, which carries `overflow` and `overflow32`. -/
  reports : Bool
  sign : Signedness
  width : Width
  kind : Kind
  deriving DecidableEq, Repr

/-- Why a select word names no instruction (R57). -/
inductive Reserved where
  /-- `K = 11`: 16 codes. -/
  | kind11
  /-- `K = 10` with `OE = 1` or `Rc = 1`: 12 codes. -/
  | moduloVariant
  deriving DecidableEq, Repr

/-- What a select word decodes to (R52): an instruction, or a reserved code rejected by name. -/
inductive Decoded where
  | instr (i : Instr)
  | reserved (why : Reserved)
  deriving DecidableEq, Repr

end Sys2Proof
end

