-- ==== Sys2Proof/WellFormed.lean ====
section
/-!
DEFINITION. Which select-word fields name an instruction (spec/30_encoding.md R52, R55).
An `Instr` has no operand that could be out of range, so the check is on the fields of the word.
-/

namespace Sys2Proof

/-- The kind is one of the three that exist: `K` is not `11` (R52, R57). -/
def SelectFields.kindExists (f : SelectFields) : Bool :=
  f.kind != .reserved

/-- A modulo operation has neither the overflow-reporting nor the record variant (R55). -/
def SelectFields.variantExists (f : SelectFields) : Bool :=
  f.kind != .modulo || (!f.reports && !f.record)

/-- The fields name an instruction exactly when both checks hold (R52). -/
def SelectFields.wf (f : SelectFields) : Bool :=
  f.kindExists && f.variantExists

end Sys2Proof
end

