-- ==== Sys2Proof/Decode.lean ====
section
/-!
DEFINITION. The select decode and the encoder (spec/30_encoding.md R50 to R58), and the textual names (R54, R58).
The decoder reads the complete list of R56, every code matched on all six bits.
The encoder packs the fields of R51: `op = Rc :: OE :: S :: L :: K`.
-/

namespace Sys2Proof

/-- One row of the list of R56: a select code and the instruction it names. -/
structure OpcodeRow where
  op : Select
  instr : Instr
  deriving DecidableEq, Repr

/-- The complete list of instructions (R56), in its order; the codes are the rule's binary column. -/
def opcodeTable : List OpcodeRow :=
  [⟨0b001100#6, .divd⟩, ⟨0b101100#6, .divdRc⟩, ⟨0b011100#6, .divdo⟩, ⟨0b111100#6, .divdoRc⟩,
   ⟨0b000100#6, .divdu⟩, ⟨0b100100#6, .divduRc⟩, ⟨0b010100#6, .divduo⟩, ⟨0b110100#6, .divduoRc⟩,
   ⟨0b001000#6, .divw⟩, ⟨0b101000#6, .divwRc⟩, ⟨0b011000#6, .divwo⟩, ⟨0b111000#6, .divwoRc⟩,
   ⟨0b000000#6, .divwu⟩, ⟨0b100000#6, .divwuRc⟩, ⟨0b010000#6, .divwuo⟩, ⟨0b110000#6, .divwuoRc⟩,
   ⟨0b001101#6, .divde⟩, ⟨0b101101#6, .divdeRc⟩, ⟨0b011101#6, .divdeo⟩, ⟨0b111101#6, .divdeoRc⟩,
   ⟨0b000101#6, .divdeu⟩, ⟨0b100101#6, .divdeuRc⟩, ⟨0b010101#6, .divdeuo⟩, ⟨0b110101#6, .divdeuoRc⟩,
   ⟨0b001001#6, .divwe⟩, ⟨0b101001#6, .divweRc⟩, ⟨0b011001#6, .divweo⟩, ⟨0b111001#6, .divweoRc⟩,
   ⟨0b000001#6, .divweu⟩, ⟨0b100001#6, .divweuRc⟩, ⟨0b010001#6, .divweuo⟩, ⟨0b110001#6, .divweuoRc⟩,
   ⟨0b001110#6, .modsd⟩,
   ⟨0b000110#6, .modud⟩,
   ⟨0b001010#6, .modsw⟩,
   ⟨0b000010#6, .moduw⟩]

/-- The instructions that exist, in the order of R56 (R58: the set can be enumerated). -/
def Instr.all : List Instr :=
  opcodeTable.map OpcodeRow.instr

/-- The field `K` of a select word (R51). -/
def kindOfBits (k : BitVec 2) : Kind :=
  if k = 0b00#2 then .plainDivide
  else if k = 0b01#2 then .extendedDivide
  else if k = 0b10#2 then .modulo
  else .reserved

/-- The fields of a select word (R51): `Rc` in bit 5, `OE` in bit 4, `S` in bit 3, `L` in bit 2, `K` in bits 1 and 0. -/
def selectFields (op : Select) : SelectFields where
  record := op.getLsbD 5
  reports := op.getLsbD 4
  sign := if op.getLsbD 3 then .signed else .unsigned
  width := if op.getLsbD 2 then .w64 else .w32
  kind := kindOfBits (op.extractLsb' 0 2)

/-- The name under which a code outside the list is rejected (R57). -/
def reservedReason (op : Select) : Reserved :=
  if (selectFields op).kind = .reserved then .kind11 else .moduloVariant

/-- Decoding is total (R52): the instruction whose code `op` is (R56), or a reserved code by name (R57). -/
def decode (op : Select) : Decoded :=
  match opcodeTable.find? (fun row => row.op == op) with
  | some row => .instr row.instr
  | none => .reserved (reservedReason op)

/-- The properties of each instruction: the columns `Rc`, `OE`, sign, `W` and kind of R56. -/
def Instr.fields : Instr → SelectFields
  | .divd => ⟨false, false, .signed, .w64, .plainDivide⟩
  | .divdRc => ⟨true, false, .signed, .w64, .plainDivide⟩
  | .divdo => ⟨false, true, .signed, .w64, .plainDivide⟩
  | .divdoRc => ⟨true, true, .signed, .w64, .plainDivide⟩
  | .divdu => ⟨false, false, .unsigned, .w64, .plainDivide⟩
  | .divduRc => ⟨true, false, .unsigned, .w64, .plainDivide⟩
  | .divduo => ⟨false, true, .unsigned, .w64, .plainDivide⟩
  | .divduoRc => ⟨true, true, .unsigned, .w64, .plainDivide⟩
  | .divw => ⟨false, false, .signed, .w32, .plainDivide⟩
  | .divwRc => ⟨true, false, .signed, .w32, .plainDivide⟩
  | .divwo => ⟨false, true, .signed, .w32, .plainDivide⟩
  | .divwoRc => ⟨true, true, .signed, .w32, .plainDivide⟩
  | .divwu => ⟨false, false, .unsigned, .w32, .plainDivide⟩
  | .divwuRc => ⟨true, false, .unsigned, .w32, .plainDivide⟩
  | .divwuo => ⟨false, true, .unsigned, .w32, .plainDivide⟩
  | .divwuoRc => ⟨true, true, .unsigned, .w32, .plainDivide⟩
  | .divde => ⟨false, false, .signed, .w64, .extendedDivide⟩
  | .divdeRc => ⟨true, false, .signed, .w64, .extendedDivide⟩
  | .divdeo => ⟨false, true, .signed, .w64, .extendedDivide⟩
  | .divdeoRc => ⟨true, true, .signed, .w64, .extendedDivide⟩
  | .divdeu => ⟨false, false, .unsigned, .w64, .extendedDivide⟩
  | .divdeuRc => ⟨true, false, .unsigned, .w64, .extendedDivide⟩
  | .divdeuo => ⟨false, true, .unsigned, .w64, .extendedDivide⟩
  | .divdeuoRc => ⟨true, true, .unsigned, .w64, .extendedDivide⟩
  | .divwe => ⟨false, false, .signed, .w32, .extendedDivide⟩
  | .divweRc => ⟨true, false, .signed, .w32, .extendedDivide⟩
  | .divweo => ⟨false, true, .signed, .w32, .extendedDivide⟩
  | .divweoRc => ⟨true, true, .signed, .w32, .extendedDivide⟩
  | .divweu => ⟨false, false, .unsigned, .w32, .extendedDivide⟩
  | .divweuRc => ⟨true, false, .unsigned, .w32, .extendedDivide⟩
  | .divweuo => ⟨false, true, .unsigned, .w32, .extendedDivide⟩
  | .divweuoRc => ⟨true, true, .unsigned, .w32, .extendedDivide⟩
  | .modsd => ⟨false, false, .signed, .w64, .modulo⟩
  | .modud => ⟨false, false, .unsigned, .w64, .modulo⟩
  | .modsw => ⟨false, false, .signed, .w32, .modulo⟩
  | .moduw => ⟨false, false, .unsigned, .w32, .modulo⟩

/-- The two bits of `K` (R51). -/
def Kind.bits : Kind → BitVec 2
  | .plainDivide => 0b00#2
  | .extendedDivide => 0b01#2
  | .modulo => 0b10#2
  | .reserved => 0b11#2

/-- The bit `S` (R51). -/
def Signedness.bit : Signedness → Bool
  | .signed => true
  | .unsigned => false

/-- The bit `L` (R51). -/
def Width.bit : Width → Bool
  | .w64 => true
  | .w32 => false

/-- `op = Rc :: OE :: S :: L :: K` (R51). -/
def SelectFields.pack (f : SelectFields) : Select :=
  BitVec.ofBool f.record ++ BitVec.ofBool f.reports ++ BitVec.ofBool f.sign.bit ++ BitVec.ofBool f.width.bit ++ f.kind.bits

/-- The select word of an instruction, from its fields (R51). -/
def encode (i : Instr) : Select :=
  i.fields.pack

/-- A word as the caller's bits: the select port has six wires, so a number with a higher bit set is no value of it (R20). -/
def selectOfNat (w : Nat) : Option Select :=
  if w < 2 ^ 6 then some (BitVec.ofNat 6 w) else none

/-- The instruction the decoder reads from the instruction word `w` (bit 0 least significant). The word is one value of the
port `op`, whatever whole number of bytes `nbits` counts for its six bits. -/
def decodeTableWord (_nbits w : Nat) : Option Instr :=
  match selectOfNat w with
  | none => none
  | some op =>
    match decode op with
    | .instr i => some i
    | .reserved _ => none

/-- The base name of a mnemonic, from `K`, `L` and `S` (R54). A reserved kind has none. -/
def SelectFields.baseName (f : SelectFields) : String :=
  match f.kind, f.width, f.sign with
  | .plainDivide, .w64, .signed => "divd"
  | .plainDivide, .w64, .unsigned => "divdu"
  | .plainDivide, .w32, .signed => "divw"
  | .plainDivide, .w32, .unsigned => "divwu"
  | .extendedDivide, .w64, .signed => "divde"
  | .extendedDivide, .w64, .unsigned => "divdeu"
  | .extendedDivide, .w32, .signed => "divwe"
  | .extendedDivide, .w32, .unsigned => "divweu"
  | .modulo, .w64, .signed => "modsd"
  | .modulo, .w64, .unsigned => "modud"
  | .modulo, .w32, .signed => "modsw"
  | .modulo, .w32, .unsigned => "moduw"
  | .reserved, _, _ => ""

/-- The mnemonic: the base name, `o` for `OE = 1`, then `.` for `Rc = 1` (R54, R59). -/
def Instr.mnemonic (i : Instr) : String :=
  i.fields.baseName ++ (if i.fields.reports then "o" else "") ++ (if i.fields.record then "." else "")

/-- The registry seen by name (R58): the instruction a mnemonic names, or none for an unknown mnemonic. -/
def lookupMnemonic (name : String) : Option Instr :=
  Instr.all.find? (fun i => i.mnemonic == name)

end Sys2Proof
end

