-- ==== Sys2Proof/Machine/State.lean ====
section
/-!
DEFINITION. What the machine holds (spec/10_state.md). The block has no storage of its own (R27 to R33): no pc, no register
file, no memory, no status register. The values the spec gives it are those on its ports (R20, R23; section 5's table), and
State holds them: the input ports as the caller holds them, and the output fields as the last evaluation left them.
That they are held at all is the model's way of writing a function of ports as a step (DESIGN CHOICE, log entry 1).
-/

namespace Sys2Proof.Machine

/-- The reasons a step could fault: none. "The block raises no synchronous exception" (spec/60_exceptions.md R170); a zero
divisor, signed `MIN` by -1 and an extended quotient that does not fit are ordinary results (R171). Safe: nothing is stopped
that the hardware goes on with. -/
inductive Fault where
  deriving DecidableEq, Repr

/-- The reasons a step could be refused. -/
inductive Refusal where
  /-- Raised by an arm of `exec` whose instruction has no meaning yet. No arm raises it: all 36 instructions have theirs. Safe. -/
  | notModelled (mnemonic : String)
  deriving DecidableEq, Repr

/-- The two overflow indicators, always together (R24). -/
structure OverflowFlags where
  /-- Overflow of the operation's own width (R91). -/
  overflow : Bool
  /-- Overflow of the fixed 32-bit reference width (R92, R93). -/
  overflow32 : Bool
  deriving DecidableEq, Repr

/-- One condition-register slot (R26): four named bits, packed `lt gt eq so` on the wires. -/
structure ConditionRegister where
  lt : Bool
  gt : Bool
  eq : Bool
  so : Bool
  deriving DecidableEq, Repr

/-- The input ports (R20), as the caller holds them. -/
structure Ports where
  /-- The operation-select word `op[5:0]`. -/
  op : Select
  /-- The dividend of every instruction; legacy `dividend`. -/
  ra : Word
  /-- The divisor of every instruction; legacy `divisor`. -/
  rb : Word
  /-- Legacy `result_prev`; read by no instruction (R22). -/
  rc : Word
  deriving DecidableEq, Repr

/-- The output fields (R23). An absent field is `none`, which is no value (R10, R25). -/
structure Outputs where
  /-- The destination-register value. -/
  rt : Option Word
  /-- `overflow` and `overflow32`: one presence for both (R24). -/
  ov : Option OverflowFlags
  cr0 : Option ConditionRegister
  cr1 : Option ConditionRegister
  cr2 : Option ConditionRegister
  cr3 : Option ConditionRegister
  cr4 : Option ConditionRegister
  cr5 : Option ConditionRegister
  cr6 : Option ConditionRegister
  cr7 : Option ConditionRegister
  /-- `lookup_fail`: `op` names no instruction (R156). Always present. -/
  lookupFail : Bool
  deriving DecidableEq, Repr

/-- The machine: the values on its input ports and the output fields of its last evaluation. -/
structure State where
  ports : Ports
  out : Outputs
  deriving DecidableEq, Repr

/-- The machine before the caller has driven anything. "There is nothing to reset" (R34). The ports at zero are a DESIGN
CHOICE (log entry 2); the output fields are what the rules give for those ports, `divwu` of 0 by 0 (R34: "From the first moment
its inputs are driven, its outputs are the function of those inputs"; DEDUCED, log entry 3). -/
def State.reset : State where
  ports := { op := 0, ra := 0, rb := 0, rc := 0 }
  out :=
    { rt := some 0, ov := none, cr0 := none, cr1 := none, cr2 := none, cr3 := none, cr4 := none, cr5 := none, cr6 := none,
      cr7 := none, lookupFail := false }

end Sys2Proof.Machine
end

