-- ==== Sys2Proof/Machine/Operands.lean ====
section
/-!
DEFINITION. Integer readings of a bit vector (spec/00_scope.md R8) and the narrowing and widening of operands and results
(spec/10_state.md R21, spec/30_encoding.md R53, spec/46_dispatch.md R151).
-/

namespace Sys2Proof.Machine

/-- `sint_W(v)` for a signed operation, `uint_W(v)` for an unsigned one (R8, R53). -/
def readInt {W : Nat} (S : Signedness) (v : BitVec W) : Int :=
  match S with
  | .signed => v.toInt
  | .unsigned => (v.toNat : Int)

/-- `trunc_W(x)` (R8): the `W`-bit vector whose unsigned reading is `x` modulo `2^W`. -/
def truncTo (W : Nat) (x : Int) : BitVec W :=
  BitVec.ofInt W x

/-- `MIN_W` (R8). -/
def minInt (W : Nat) : Int :=
  -(2 ^ (W - 1))

/-- `MAX_W` (R8). -/
def maxInt (W : Nat) : Int :=
  2 ^ (W - 1) - 1

/-- `UMAX_W` (R8). -/
def umaxInt (W : Nat) : Int :=
  2 ^ W - 1

/-- `bits[31:0]` of a port: all that a 32-bit instruction reads of it (R21). -/
def lowWord (v : Word) : HalfWord :=
  v.extractLsb' 0 32

/-- `zext_64(v)`: how a `W`-bit value stands on the 64-bit port `rt` (R151). -/
def zext64 {W : Nat} (v : BitVec W) : Word :=
  v.setWidth 64

end Sys2Proof.Machine
end

