-- ==== Sys2Proof/Machine/Flags.lean ====
section
/-!
DEFINITION. Every flag computation: the overflow comparator U5 (spec/41_overflow_comparator.md R90 to R93) and the
condition-register encoder U6 (spec/42_condition_register_encoder.md R100 to R102).
-/

namespace Sys2Proof.Machine

/-- Whether the quotient would fit a 32-bit destination of the operation's signedness (R92, decision D11). -/
def fitsReference (S : Signedness) (q : Word) : Bool :=
  match S with
  | .signed =>
    decide (minInt Config.referenceWidth ≤ readInt .signed q ∧ readInt .signed q ≤ maxInt Config.referenceWidth)
  | .unsigned => decide (readInt .unsigned q ≤ umaxInt Config.referenceWidth)

/-- U5 `overflow_comparator` (R90): `overflow` is the native bit (R91); `overflow32` is the native bit for a 32-bit operation
(R93), and for a 64-bit one also tells whether the quotient leaves the 32-bit range (R92). -/
def overflowComparator (ovn : Bool) (q : Word) (L : Width) (S : Signedness) : OverflowFlags where
  overflow := ovn
  overflow32 :=
    match L with
    | .w32 => ovn
    | .w64 => ovn || !fitsReference S q

/-- The number U6 compares with zero: `v` as a signed number of the instruction's width (R100, R101), whatever its sign
field says (R102). -/
def comparedValue (v : Word) (L : Width) : Int :=
  match L with
  | .w64 => readInt .signed v
  | .w32 => readInt .signed (lowWord v)

/-- U6 `condition_register_encoder` (R100). -/
def conditionRegisterEncoder (v : Word) (L : Width) (soIn : Bool) : ConditionRegister where
  lt := decide (comparedValue v L < 0)
  gt := decide (0 < comparedValue v L)
  eq := decide (comparedValue v L = 0)
  so := soIn

end Sys2Proof.Machine
end

