-- ==== Sys2Proof/Machine/Ops.lean ====
section
/-!
DEFINITION. The arithmetic units U1 to U4 (spec/40_divider_primitives.md R70 to R76) and U7 (spec/43_extended_divide.md R110,
R111), the assembly of a result (spec/46_dispatch.md R150 to R154) and the lookup failure (R156).
There is no memory operation (spec/20_memory.md R40) and no taking of an exception or return from one
(spec/60_exceptions.md R170, R175, R176).
-/

namespace Sys2Proof.Machine

/-- The outputs of a divider unit (R70). -/
structure DividerOut (W : Nat) where
  q : BitVec W
  r : BitVec W
  ovn : Bool
  deriving DecidableEq, Repr

/-- The outputs of U7 (R111). -/
structure ExtendedOut (W : Nat) where
  q : BitVec W
  ovn : Bool
  deriving DecidableEq, Repr

/-- What a divide's base rule computes: the `W`-bit value `val` and the overflow pair `ovp` (R150). -/
structure BaseResult (W : Nat) where
  val : BitVec W
  ovp : OverflowFlags
  deriving DecidableEq, Repr

/-- The edge conditions of a divider (R72): a zero divisor, or signed `MIN_W` by -1. -/
def isEdge {W : Nat} (S : Signedness) (n d : BitVec W) : Bool :=
  decide (readInt S d = 0) || (S == .signed && decide (readInt S n = minInt W) && decide (readInt S d = -1))

/-- A divider unit: sentinel 0 for quotient and remainder on an edge condition (R72), else the quotient truncated toward zero
and the remainder with the dividend's sign (R71, R9). -/
def divider {W : Nat} (S : Signedness) (n d : BitVec W) : DividerOut W :=
  if isEdge S n d then { q := 0, r := 0, ovn := true }
  else
    { q := truncTo W ((readInt S n).tdiv (readInt S d)), r := truncTo W ((readInt S n).tmod (readInt S d)), ovn := false }

/-- U1 (R73). -/
def signedDivider32 (n d : HalfWord) : DividerOut 32 :=
  divider .signed n d

/-- U2 (R74). -/
def unsignedDivider32 (n d : HalfWord) : DividerOut 32 :=
  divider .unsigned n d

/-- U3 (R75). -/
def signedDivider64 (n d : Word) : DividerOut 64 :=
  divider .signed n d

/-- U4 (R76). -/
def unsignedDivider64 (n d : Word) : DividerOut 64 :=
  divider .unsigned n d

/-- The conceptual dividend `D = a * 2^W`: the operand in the upper half of a double-width dividend (R110). -/
def conceptualDividend {W : Nat} (S : Signedness) (n : BitVec W) : Int :=
  readInt S n * 2 ^ W

/-- Whether a true quotient fits in `W` bits (R111, decision D12). -/
def quotientFits (W : Nat) (S : Signedness) (Q : Int) : Bool :=
  match S with
  | .signed => decide (minInt W ≤ Q ∧ Q ≤ maxInt W)
  | .unsigned => decide (Q ≤ umaxInt W)

/-- U7 `extended_division_quotient_sentinel` (R111). -/
def extendedDivisionQuotientSentinel {W : Nat} (S : Signedness) (n d : BitVec W) : ExtendedOut W :=
  if readInt S d = 0 then { q := 0, ovn := true }
  else
    let Q := (conceptualDividend S n).tdiv (readInt S d)
    if quotientFits W S Q then { q := truncTo W Q, ovn := false } else { q := 0, ovn := true }

/-- The result of a divide or extended divide (R151 to R154): `rt` always; the pair when `OE = 1`; `cr0` when `Rc = 1`, with
`so_in` the evaluation's own `overflow` when the pair is reported too and 0 otherwise; `cr1` to `cr7` absent. -/
def divideOutputs {W : Nat} (L : Width) (reports record : Bool) (b : BaseResult W) : Outputs where
  rt := some (zext64 b.val)
  ov := if reports then some b.ovp else none
  cr0 := if record then some (conditionRegisterEncoder (zext64 b.val) L (reports && b.ovp.overflow)) else none
  cr1 := none
  cr2 := none
  cr3 := none
  cr4 := none
  cr5 := none
  cr6 := none
  cr7 := none
  lookupFail := false

/-- The result of a modulo instruction: a bare value (R144, R151). -/
def moduloOutputs {W : Nat} (val : BitVec W) : Outputs where
  rt := some (zext64 val)
  ov := none
  cr0 := none
  cr1 := none
  cr2 := none
  cr3 := none
  cr4 := none
  cr5 := none
  cr6 := none
  cr7 := none
  lookupFail := false

/-- The result of a reserved code: `lookup_fail = 1` and every other field absent (R156). -/
def lookupFailureOutputs : Outputs where
  rt := none
  ov := none
  cr0 := none
  cr1 := none
  cr2 := none
  cr3 := none
  cr4 := none
  cr5 := none
  cr6 := none
  cr7 := none
  lookupFail := true

/-- The outputs take the values of one evaluation; the input ports are the caller's and stay (R43, R179). -/
def State.settle (s : State) (o : Outputs) : State :=
  { s with out := o }

end Sys2Proof.Machine
end

