-- ==== Sys2Proof/Machine/ExtendedDivide.lean ====
section
/-!
DEFINITION. The extended-divide instructions (spec/43_extended_divide.md R114 to R117), assembled by spec/46_dispatch.md R150 to R154.
Each base operation is computed once from its rule's pseudocode; the variants differ in the fields they show (R155).
-/

namespace Sys2Proof.Machine

/-- R114: the quotient of U7, signed at `W = 64`, and the pair of U5. -/
def divdeBase (ra rb : Word) : BaseResult 64 :=
  let u := extendedDivisionQuotientSentinel .signed ra rb
  { val := u.q, ovp := overflowComparator u.ovn u.q .w64 .signed }

/-- `divde` (R114). -/
def execDivde (s : State) : Host.Outcome State Fault Refusal :=
  .next (s.settle (divideOutputs .w64 false false (divdeBase s.ports.ra s.ports.rb)))

/-- `divde.` (R114). -/
def execDivdeRc (s : State) : Host.Outcome State Fault Refusal :=
  .next (s.settle (divideOutputs .w64 false true (divdeBase s.ports.ra s.ports.rb)))

/-- `divdeo` (R114). -/
def execDivdeo (s : State) : Host.Outcome State Fault Refusal :=
  .next (s.settle (divideOutputs .w64 true false (divdeBase s.ports.ra s.ports.rb)))

/-- `divdeo.` (R114). -/
def execDivdeoRc (s : State) : Host.Outcome State Fault Refusal :=
  .next (s.settle (divideOutputs .w64 true true (divdeBase s.ports.ra s.ports.rb)))

/-- R115: the quotient of U7, unsigned at `W = 64`, and the pair of U5. -/
def divdeuBase (ra rb : Word) : BaseResult 64 :=
  let u := extendedDivisionQuotientSentinel .unsigned ra rb
  { val := u.q, ovp := overflowComparator u.ovn u.q .w64 .unsigned }

/-- `divdeu` (R115). -/
def execDivdeu (s : State) : Host.Outcome State Fault Refusal :=
  .next (s.settle (divideOutputs .w64 false false (divdeuBase s.ports.ra s.ports.rb)))

/-- `divdeu.` (R115). -/
def execDivdeuRc (s : State) : Host.Outcome State Fault Refusal :=
  .next (s.settle (divideOutputs .w64 false true (divdeuBase s.ports.ra s.ports.rb)))

/-- `divdeuo` (R115). -/
def execDivdeuo (s : State) : Host.Outcome State Fault Refusal :=
  .next (s.settle (divideOutputs .w64 true false (divdeuBase s.ports.ra s.ports.rb)))

/-- `divdeuo.` (R115). -/
def execDivdeuoRc (s : State) : Host.Outcome State Fault Refusal :=
  .next (s.settle (divideOutputs .w64 true true (divdeuBase s.ports.ra s.ports.rb)))

/-- R116: the quotient of U7, signed at `W = 32`, and the pair of U5. -/
def divweBase (ra rb : Word) : BaseResult 32 :=
  let u := extendedDivisionQuotientSentinel .signed (lowWord ra) (lowWord rb)
  { val := u.q, ovp := overflowComparator u.ovn (zext64 u.q) .w32 .signed }

/-- `divwe` (R116). -/
def execDivwe (s : State) : Host.Outcome State Fault Refusal :=
  .next (s.settle (divideOutputs .w32 false false (divweBase s.ports.ra s.ports.rb)))

/-- `divwe.` (R116). -/
def execDivweRc (s : State) : Host.Outcome State Fault Refusal :=
  .next (s.settle (divideOutputs .w32 false true (divweBase s.ports.ra s.ports.rb)))

/-- `divweo` (R116). -/
def execDivweo (s : State) : Host.Outcome State Fault Refusal :=
  .next (s.settle (divideOutputs .w32 true false (divweBase s.ports.ra s.ports.rb)))

/-- `divweo.` (R116). -/
def execDivweoRc (s : State) : Host.Outcome State Fault Refusal :=
  .next (s.settle (divideOutputs .w32 true true (divweBase s.ports.ra s.ports.rb)))

/-- R117: the quotient of U7, unsigned at `W = 32`, and the pair of U5. -/
def divweuBase (ra rb : Word) : BaseResult 32 :=
  let u := extendedDivisionQuotientSentinel .unsigned (lowWord ra) (lowWord rb)
  { val := u.q, ovp := overflowComparator u.ovn (zext64 u.q) .w32 .unsigned }

/-- `divweu` (R117). -/
def execDivweu (s : State) : Host.Outcome State Fault Refusal :=
  .next (s.settle (divideOutputs .w32 false false (divweuBase s.ports.ra s.ports.rb)))

/-- `divweu.` (R117). -/
def execDivweuRc (s : State) : Host.Outcome State Fault Refusal :=
  .next (s.settle (divideOutputs .w32 false true (divweuBase s.ports.ra s.ports.rb)))

/-- `divweuo` (R117). -/
def execDivweuo (s : State) : Host.Outcome State Fault Refusal :=
  .next (s.settle (divideOutputs .w32 true false (divweuBase s.ports.ra s.ports.rb)))

/-- `divweuo.` (R117). -/
def execDivweuoRc (s : State) : Host.Outcome State Fault Refusal :=
  .next (s.settle (divideOutputs .w32 true true (divweuBase s.ports.ra s.ports.rb)))

end Sys2Proof.Machine
end

