-- ==== Sys2Proof/Machine/Modulo.lean ====
section
/-!
DEFINITION. The modulo instructions (spec/45_modulo.md R140 to R143); none carries an overflow pair or a condition slot (R144).
-/

namespace Sys2Proof.Machine

/-- R140: the remainder of U3; its quotient and its `ovn` are not used. -/
def modsdBase (ra rb : Word) : BitVec 64 :=
  (signedDivider64 ra rb).r

/-- `modsd` (R140). -/
def execModsd (s : State) : Host.Outcome State Fault Refusal :=
  .next (s.settle (moduloOutputs (modsdBase s.ports.ra s.ports.rb)))

/-- R141: the remainder of U4; its quotient and its `ovn` are not used. -/
def modudBase (ra rb : Word) : BitVec 64 :=
  (unsignedDivider64 ra rb).r

/-- `modud` (R141). -/
def execModud (s : State) : Host.Outcome State Fault Refusal :=
  .next (s.settle (moduloOutputs (modudBase s.ports.ra s.ports.rb)))

/-- R142: the remainder of U1; its quotient and its `ovn` are not used. -/
def modswBase (ra rb : Word) : BitVec 32 :=
  (signedDivider32 (lowWord ra) (lowWord rb)).r

/-- `modsw` (R142). -/
def execModsw (s : State) : Host.Outcome State Fault Refusal :=
  .next (s.settle (moduloOutputs (modswBase s.ports.ra s.ports.rb)))

/-- R143: the remainder of U2; its quotient and its `ovn` are not used. -/
def moduwBase (ra rb : Word) : BitVec 32 :=
  (unsignedDivider32 (lowWord ra) (lowWord rb)).r

/-- `moduw` (R143). -/
def execModuw (s : State) : Host.Outcome State Fault Refusal :=
  .next (s.settle (moduloOutputs (moduwBase s.ports.ra s.ports.rb)))

end Sys2Proof.Machine
end

