-- ==== Sys2Proof/Machine/PlainDivide.lean ====
section
/-!
DEFINITION. The plain divide instructions (spec/44_plain_divide.md R130 to R133), assembled by spec/46_dispatch.md R150 to R154.
Each base operation is computed once from its rule's pseudocode; the variants differ in the fields they show (R155).
-/

namespace Sys2Proof.Machine

/-- R130: the quotient of U3 and the pair of U5. -/
def divdBase (ra rb : Word) : BaseResult 64 :=
  let u := signedDivider64 ra rb
  { val := u.q, ovp := overflowComparator u.ovn u.q .w64 .signed }

/-- `divd` (R130). -/
def execDivd (s : State) : Host.Outcome State Fault Refusal :=
  .next (s.settle (divideOutputs .w64 false false (divdBase s.ports.ra s.ports.rb)))

/-- `divd.` (R130). -/
def execDivdRc (s : State) : Host.Outcome State Fault Refusal :=
  .next (s.settle (divideOutputs .w64 false true (divdBase s.ports.ra s.ports.rb)))

/-- `divdo` (R130). -/
def execDivdo (s : State) : Host.Outcome State Fault Refusal :=
  .next (s.settle (divideOutputs .w64 true false (divdBase s.ports.ra s.ports.rb)))

/-- `divdo.` (R130). -/
def execDivdoRc (s : State) : Host.Outcome State Fault Refusal :=
  .next (s.settle (divideOutputs .w64 true true (divdBase s.ports.ra s.ports.rb)))

/-- R131: the quotient of U4 and the pair of U5. -/
def divduBase (ra rb : Word) : BaseResult 64 :=
  let u := unsignedDivider64 ra rb
  { val := u.q, ovp := overflowComparator u.ovn u.q .w64 .unsigned }

/-- `divdu` (R131). -/
def execDivdu (s : State) : Host.Outcome State Fault Refusal :=
  .next (s.settle (divideOutputs .w64 false false (divduBase s.ports.ra s.ports.rb)))

/-- `divdu.` (R131). -/
def execDivduRc (s : State) : Host.Outcome State Fault Refusal :=
  .next (s.settle (divideOutputs .w64 false true (divduBase s.ports.ra s.ports.rb)))

/-- `divduo` (R131). -/
def execDivduo (s : State) : Host.Outcome State Fault Refusal :=
  .next (s.settle (divideOutputs .w64 true false (divduBase s.ports.ra s.ports.rb)))

/-- `divduo.` (R131). -/
def execDivduoRc (s : State) : Host.Outcome State Fault Refusal :=
  .next (s.settle (divideOutputs .w64 true true (divduBase s.ports.ra s.ports.rb)))

/-- R132: the quotient of U1 and the pair of U5. -/
def divwBase (ra rb : Word) : BaseResult 32 :=
  let u := signedDivider32 (lowWord ra) (lowWord rb)
  { val := u.q, ovp := overflowComparator u.ovn (zext64 u.q) .w32 .signed }

/-- `divw` (R132). -/
def execDivw (s : State) : Host.Outcome State Fault Refusal :=
  .next (s.settle (divideOutputs .w32 false false (divwBase s.ports.ra s.ports.rb)))

/-- `divw.` (R132). -/
def execDivwRc (s : State) : Host.Outcome State Fault Refusal :=
  .next (s.settle (divideOutputs .w32 false true (divwBase s.ports.ra s.ports.rb)))

/-- `divwo` (R132). -/
def execDivwo (s : State) : Host.Outcome State Fault Refusal :=
  .next (s.settle (divideOutputs .w32 true false (divwBase s.ports.ra s.ports.rb)))

/-- `divwo.` (R132). -/
def execDivwoRc (s : State) : Host.Outcome State Fault Refusal :=
  .next (s.settle (divideOutputs .w32 true true (divwBase s.ports.ra s.ports.rb)))

/-- R133: the quotient of U2 and the pair of U5. -/
def divwuBase (ra rb : Word) : BaseResult 32 :=
  let u := unsignedDivider32 (lowWord ra) (lowWord rb)
  { val := u.q, ovp := overflowComparator u.ovn (zext64 u.q) .w32 .unsigned }

/-- `divwu` (R133). -/
def execDivwu (s : State) : Host.Outcome State Fault Refusal :=
  .next (s.settle (divideOutputs .w32 false false (divwuBase s.ports.ra s.ports.rb)))

/-- `divwu.` (R133). -/
def execDivwuRc (s : State) : Host.Outcome State Fault Refusal :=
  .next (s.settle (divideOutputs .w32 false true (divwuBase s.ports.ra s.ports.rb)))

/-- `divwuo` (R133). -/
def execDivwuo (s : State) : Host.Outcome State Fault Refusal :=
  .next (s.settle (divideOutputs .w32 true false (divwuBase s.ports.ra s.ports.rb)))

/-- `divwuo.` (R133). -/
def execDivwuoRc (s : State) : Host.Outcome State Fault Refusal :=
  .next (s.settle (divideOutputs .w32 true true (divwuBase s.ports.ra s.ports.rb)))

end Sys2Proof.Machine
end

