-- ==== Sys2Proof/Machine/Dispatch.lean ====
section
/-!
DEFINITION. The dispatch: one arm per instruction (spec/46_dispatch.md R150, "Dispatch is a pure lookup-and-call").
-/

namespace Sys2Proof.Machine

def exec (i : Instr) (s : State) : Host.Outcome State Fault Refusal :=
  match i with
  | .divd => Sys2Proof.Machine.execDivd s
  | .divdRc => Sys2Proof.Machine.execDivdRc s
  | .divdo => Sys2Proof.Machine.execDivdo s
  | .divdoRc => Sys2Proof.Machine.execDivdoRc s
  | .divdu => Sys2Proof.Machine.execDivdu s
  | .divduRc => Sys2Proof.Machine.execDivduRc s
  | .divduo => Sys2Proof.Machine.execDivduo s
  | .divduoRc => Sys2Proof.Machine.execDivduoRc s
  | .divw => Sys2Proof.Machine.execDivw s
  | .divwRc => Sys2Proof.Machine.execDivwRc s
  | .divwo => Sys2Proof.Machine.execDivwo s
  | .divwoRc => Sys2Proof.Machine.execDivwoRc s
  | .divwu => Sys2Proof.Machine.execDivwu s
  | .divwuRc => Sys2Proof.Machine.execDivwuRc s
  | .divwuo => Sys2Proof.Machine.execDivwuo s
  | .divwuoRc => Sys2Proof.Machine.execDivwuoRc s
  | .divde => Sys2Proof.Machine.execDivde s
  | .divdeRc => Sys2Proof.Machine.execDivdeRc s
  | .divdeo => Sys2Proof.Machine.execDivdeo s
  | .divdeoRc => Sys2Proof.Machine.execDivdeoRc s
  | .divdeu => Sys2Proof.Machine.execDivdeu s
  | .divdeuRc => Sys2Proof.Machine.execDivdeuRc s
  | .divdeuo => Sys2Proof.Machine.execDivdeuo s
  | .divdeuoRc => Sys2Proof.Machine.execDivdeuoRc s
  | .divwe => Sys2Proof.Machine.execDivwe s
  | .divweRc => Sys2Proof.Machine.execDivweRc s
  | .divweo => Sys2Proof.Machine.execDivweo s
  | .divweoRc => Sys2Proof.Machine.execDivweoRc s
  | .divweu => Sys2Proof.Machine.execDivweu s
  | .divweuRc => Sys2Proof.Machine.execDivweuRc s
  | .divweuo => Sys2Proof.Machine.execDivweuo s
  | .divweuoRc => Sys2Proof.Machine.execDivweuoRc s
  | .modsd => Sys2Proof.Machine.execModsd s
  | .modud => Sys2Proof.Machine.execModud s
  | .modsw => Sys2Proof.Machine.execModsw s
  | .moduw => Sys2Proof.Machine.execModuw s

end Sys2Proof.Machine
end

