-- ==== Sys2Proof/Machine/Caller.lean ====
section
/-!
DEFINITION. The block's outside: what the caller drives and how the select port is read (spec/60_exceptions.md R180), and one
whole evaluation (spec/46_dispatch.md R150), reserved codes included (R156). Step.lean only calls it.
-/

namespace Sys2Proof.Machine

/-- The caller presents new values on the input ports (R180); the outputs wait for the next evaluation (log entry 1). -/
def State.drive (s : State) (p : Ports) : State :=
  { s with ports := p }

/-- The instruction of this evaluation is the one the port `op` names (R49, R50). -/
def State.select (s : State) : Decoded :=
  decode s.ports.op

/-- One evaluation (R150): the instruction named on `op`, or the lookup failure of a reserved code (R156; a next state, with
every field absent, because "the next evaluation is unaffected", R175; log entry 4). -/
def evaluation (s : State) : Host.Outcome State Fault Refusal :=
  match s.select with
  | .instr i => exec i s
  | .reserved _ => .next (s.settle lookupFailureOutputs)

/-- The caller puts the select word `w` on `op`: its six wires take the low six bits (log entry 6). -/
def State.driveSelect (s : State) (w : Nat) : State :=
  { s with ports := { s.ports with op := BitVec.ofNat 6 w } }

end Sys2Proof.Machine
end

