-- ==== Sys2Proof/Machine/Step.lean ====
section
/-!
DEFINITION. One step of the machine: one evaluation (spec/00_scope.md R12; spec/70_reset_and_hazards.md R195: "an evaluation is
one atomic step").
-/

namespace Sys2Proof.Machine

/-- One evaluation of the values on the input ports (R12, R150). -/
def step (s : State) : Host.Outcome State Fault Refusal :=
  evaluation s

/-- The state in which the next step evaluates the instruction word `w`: the block fetches nothing, the caller names the
instruction on `op` (R28, R49, R50; log entry 5). `nbits` counts whole bytes and plays no part. -/
def State.withFetchWord (s : State) (_nbits w : Nat) : State :=
  s.driveSelect w

end Sys2Proof.Machine
end

