-- ==== Sys2Proof/Machine/BitLevel.lean ====
section
/-!
DEFINITION. A second design of the same block on bit vectors only, for statements to compare with: no unbounded integer occurs.
"The spec fixes the function of each unit and nothing of its structure" (spec/40_divider_primitives.md R79,
spec/43_extended_divide.md R119). `step` never calls it.
The plain units are fixed-width dividers; the extended unit is one double-width divider on the dividend `n :: zeros_W` (R110);
the range tests are those on bits (spec/41_overflow_comparator.md R94); the decode is a wiring of the five fields (R51, R52).
-/

namespace Sys2Proof.Machine

/-- The most negative `W`-bit pattern, by the most negative vector test of a divider's edge detector (R72). -/
def bitEdge {W : Nat} (S : Signedness) (n d : BitVec W) : Bool :=
  d == 0#W || (S == .signed && n == BitVec.intMin W && d == BitVec.allOnes W)

/-- A fixed-width divider array with the sentinel on its edge conditions. -/
def bitDivider {W : Nat} (S : Signedness) (n d : BitVec W) : DividerOut W :=
  if bitEdge S n d then { q := 0#W, r := 0#W, ovn := true }
  else
    match S with
    | .signed => { q := n.sdiv d, r := n.srem d, ovn := false }
    | .unsigned => { q := n.udiv d, r := n.umod d, ovn := false }

/-- One double-width divider: the dividend in the upper half, the divisor widened (R110), the quotient kept when its upper
half is the extension of its lower half. -/
def bitExtended {W : Nat} (S : Signedness) (n d : BitVec W) : ExtendedOut W :=
  let dividend : BitVec (W + W) := n ++ 0#W
  if d == 0#W then { q := 0#W, ovn := true }
  else
    match S with
    | .signed =>
      let wide := dividend.sdiv (d.signExtend (W + W))
      if wide == (wide.setWidth W).signExtend (W + W) then { q := wide.setWidth W, ovn := false } else { q := 0#W, ovn := true }
    | .unsigned =>
      let wide := dividend.udiv (d.setWidth (W + W))
      if wide == (wide.setWidth W).setWidth (W + W) then { q := wide.setWidth W, ovn := false } else { q := 0#W, ovn := true }

/-- The overflow pair by the bit tests of R94: the 33 bits `q[63:31]` all equal, or `q[63:32]` all zeros. -/
def bitOverflow (ovn : Bool) (q : Word) (L : Width) (S : Signedness) : OverflowFlags where
  overflow := ovn
  overflow32 :=
    match L, S with
    | .w32, _ => ovn
    | .w64, .signed => ovn || !(q.extractLsb' 31 33 == 0#33 || q.extractLsb' 31 33 == BitVec.allOnes 33)
    | .w64, .unsigned => ovn || !(q.extractLsb' 32 32 == 0#32)

/-- The slot by the sign bit and the zero test of the result at its own width. -/
def bitSlot {W : Nat} (v : BitVec W) (soIn : Bool) : ConditionRegister where
  lt := v.msb
  gt := !v.msb && !(v == 0#W)
  eq := v == 0#W
  so := soIn

/-- The value, the native overflow bit and nothing else of one operation of width `W`, chosen by kind and sign. -/
def bitOperation {W : Nat} (k : Kind) (S : Signedness) (n d : BitVec W) : ExtendedOut W :=
  match k with
  | .plainDivide => { q := (bitDivider S n d).q, ovn := (bitDivider S n d).ovn }
  | .extendedDivide => bitExtended S n d
  | .modulo => { q := (bitDivider S n d).r, ovn := false }
  | .reserved => { q := 0#W, ovn := false }

/-- The output fields of an operation of width `W`, by the fields of the select word. -/
def bitResult {W : Nat} (f : SelectFields) (n d : BitVec W) : Outputs :=
  let e := bitOperation f.kind f.sign n d
  let wide : Word := e.q.setWidth 64
  { rt := some wide
    ov := if f.reports then some (bitOverflow e.ovn wide f.width f.sign) else none
    cr0 := if f.record then some (bitSlot e.q (f.reports && e.ovn)) else none
    cr1 := none
    cr2 := none
    cr3 := none
    cr4 := none
    cr5 := none
    cr6 := none
    cr7 := none
    lookupFail := false }

/-- The whole block as one wiring of its input ports. -/
def bitOutputs (p : Ports) : Outputs :=
  let f := selectFields p.op
  if f.wf then
    match f.width with
    | .w64 => bitResult f p.ra p.rb
    | .w32 => bitResult f (p.ra.setWidth 32) (p.rb.setWidth 32)
  else lookupFailureOutputs

end Sys2Proof.Machine
end

