-- ==== Sys2Proof/Machine/Interface.lean ====
section
/-!
DEFINITION. What a caller can do with the block (spec/60_exceptions.md R180): a sequence of evaluations (spec/20_memory.md R46,
spec/95_test_vectors.md section 3), an evaluation by mnemonic (spec/00_scope.md R12, spec/30_encoding.md R58), and the legacy
divide view (spec/46_dispatch.md R158).
-/

namespace Sys2Proof.Machine

/-- The results of a sequence of evaluations: the caller drives the ports, the block evaluates, the caller reads. -/
def session (s : State) : List Ports → List Outputs
  | [] => []
  | p :: ps =>
    match step (s.drive p) with
    | .next t => t.out :: session t ps
    | .fault _ => []
    | .refused _ => []

/-- `evaluate(mnemonic, InstructionInput)` (R12): the evaluation of the named instruction; an unknown mnemonic is a lookup
failure (R156, R159). -/
def evaluateByName (name : String) (ra rb rc : Word) : List Outputs :=
  match lookupMnemonic name with
  | some i => session State.reset [{ op := encode i, ra := ra, rb := rb, rc := rc }]
  | none => [lookupFailureOutputs]

/-- `DivInput` (R158). -/
structure DivInput where
  dividend : Word
  divisor : Word
  resultPrev : Word
  deriving DecidableEq, Repr

/-- `DivResult`, or the value-only result of a modulo mnemonic when the flags are absent (R158). -/
structure DivResult where
  value : Word
  flags : Option OverflowFlags
  deriving DecidableEq, Repr

/-- The twelve mnemonics of the legacy view (R158): the eight with `OE = 1`, `Rc = 0`, and the four modulo ones. -/
def inLegacyView (i : Instr) : Bool :=
  !i.fields.record && (i.fields.reports || i.fields.kind == .modulo)

/-- The legacy names of the ports (R158): `dividend` is `ra`, `divisor` is `rb`, `result_prev` is `rc`. -/
def legacyPorts (i : Instr) (x : DivInput) : Ports where
  op := encode i
  ra := x.dividend
  rb := x.divisor
  rc := x.resultPrev

/-- The legacy names of the output fields (R158): the result value is `rt`, the flags are the overflow pair. -/
def legacyResult (o : Outputs) : Option DivResult :=
  match o.rt with
  | some v => some { value := v, flags := o.ov }
  | none => none

/-- `evaluate_div` (R158): the same evaluation under the legacy names; none for a mnemonic outside the view. -/
def evaluateDiv (i : Instr) (x : DivInput) : Option DivResult :=
  if inLegacyView i then
    match step (State.reset.drive (legacyPorts i x)) with
    | .next t => legacyResult t.out
    | .fault _ => none
    | .refused _ => none
  else none

end Sys2Proof.Machine
end

