-- ==== Sys2Proof/Machine/Wires.lean ====
section
/-!
DEFINITION. How the output fields stand on the wires (spec/10_state.md R23, R25, R26): a presence signal and value wires, which
carry zeros when the field is absent. The fields are the state; the wires are computed from them.
-/

namespace Sys2Proof.Machine

/-- The output wires (R23). -/
structure Wires where
  rt : Word
  rtValid : Bool
  overflow : Bool
  overflow32 : Bool
  /-- One presence signal for both overflow bits (R24). -/
  ovValid : Bool
  cr0 : BitVec 4
  cr1 : BitVec 4
  cr2 : BitVec 4
  cr3 : BitVec 4
  cr4 : BitVec 4
  cr5 : BitVec 4
  cr6 : BitVec 4
  cr7 : BitVec 4
  /-- `cr_valid[7:0]`: bit `n` is the presence of `crn`. -/
  crValid : BitVec 8
  lookupFail : Bool
  deriving DecidableEq, Repr

/-- A slot on its four wires (R26): `lt` in bit 3, `gt` in bit 2, `eq` in bit 1, `so` in bit 0. -/
def ConditionRegister.pack (c : ConditionRegister) : BitVec 4 :=
  BitVec.ofBool c.lt ++ BitVec.ofBool c.gt ++ BitVec.ofBool c.eq ++ BitVec.ofBool c.so

/-- The value wires of a slot: zeros when it is absent (R25). -/
def slotWires (c : Option ConditionRegister) : BitVec 4 :=
  match c with
  | some c => c.pack
  | none => 0

/-- The output wires of the fields (R25). -/
def Outputs.wires (o : Outputs) : Wires where
  rt := o.rt.getD 0
  rtValid := o.rt.isSome
  overflow := match o.ov with
    | some f => f.overflow
    | none => false
  overflow32 := match o.ov with
    | some f => f.overflow32
    | none => false
  ovValid := o.ov.isSome
  cr0 := slotWires o.cr0
  cr1 := slotWires o.cr1
  cr2 := slotWires o.cr2
  cr3 := slotWires o.cr3
  cr4 := slotWires o.cr4
  cr5 := slotWires o.cr5
  cr6 := slotWires o.cr6
  cr7 := slotWires o.cr7
  crValid :=
    BitVec.ofBool o.cr7.isSome ++ BitVec.ofBool o.cr6.isSome ++ BitVec.ofBool o.cr5.isSome ++ BitVec.ofBool o.cr4.isSome ++
      BitVec.ofBool o.cr3.isSome ++ BitVec.ofBool o.cr2.isSome ++ BitVec.ofBool o.cr1.isSome ++ BitVec.ofBool o.cr0.isSome
  lookupFail := o.lookupFail

end Sys2Proof.Machine
end

