-- ==== Sys2Proof/Safety.lean ====
section
/-!
DEFINITION. The terms in which statements about the machine are made: what it is for an instruction to deliver a value, which
output fields belong together, and the invariant that every step keeps. Nothing here is used by `step`.
-/

namespace Sys2Proof.Machine

/-- The instruction completes with the value `v` on `rt`; the input ports stay as the caller holds them. -/
def Delivers (i : Instr) (s : State) (v : Word) : Prop :=
  ∃ t, exec i s = .next t ∧ t.ports = s.ports ∧ t.out.rt = some v

/-- The instruction completes with the value `v` and the overflow pair `pair`; the input ports stay. -/
def DeliversPair (i : Instr) (s : State) (v : Word) (pair : OverflowFlags) : Prop :=
  ∃ t, exec i s = .next t ∧ t.ports = s.ports ∧ t.out.rt = some v ∧ t.out.ov = some pair

/-- The instruction completes with the value `v` on `rt` as its only present field, and `lookup_fail = 0`; nothing else of the
state changes. -/
def DeliversOnly (i : Instr) (s : State) (v : Word) : Prop :=
  exec i s = .next { s with out :=
    { rt := some v, ov := none, cr0 := none, cr1 := none, cr2 := none, cr3 := none, cr4 := none, cr5 := none, cr6 := none,
      cr7 := none, lookupFail := false } }

/-- The record forms of one divide show a slot with `lt = 1` (R101, R102). -/
def RecordsBelowZero (dotted both : Instr) (s : State) : Prop :=
  ∀ i ∈ [dotted, both], ∃ t c, exec i s = .next t ∧ t.ports = s.ports ∧ t.out.cr0 = some c ∧ c.lt = true

/-- The four variants of one divide (R155): plain, `.`, `o` and `o.` deliver the same value, the last two with the pair. -/
def FourDeliver (plain dotted reporting both : Instr) (s : State) (v : Word) (pair : OverflowFlags) : Prop :=
  Delivers plain s v ∧ Delivers dotted s v ∧ DeliversPair reporting s v pair ∧ DeliversPair both s v pair

/-- The divisor that an operation of width `L` sees is zero (R21, R171). -/
def divisorIsZero (L : Width) (p : Ports) : Prop :=
  match L with
  | .w64 => p.rb = 0
  | .w32 => lowWord p.rb = 0

/-- The result on `rt`, read as a signed number of the operation's width. -/
def signedResult (L : Width) (v : Word) : Int :=
  match L with
  | .w64 => v.toInt
  | .w32 => (lowWord v).toInt

/-- The quotient on `rt` lies outside the 32-bit range of the operation's signedness (R92). -/
def outsideReference (S : Signedness) (v : Word) : Prop :=
  match S with
  | .signed => v.toInt < -2 ^ 31 ∨ 2 ^ 31 - 1 < v.toInt
  | .unsigned => 2 ^ 32 - 1 < v.toNat

/-- The pair agrees with the value beside it: an overflow means the sentinel and both bits (R72, R95, R111); at 32 bits the two
bits coincide (R93); at 64 bits, without overflow, `overflow32` says whether the value leaves the 32-bit range (R92). -/
def PairFits (f : SelectFields) (v : Word) (g : OverflowFlags) : Prop :=
  (g.overflow = true → g.overflow32 = true ∧ v = 0) ∧
  (f.width = .w32 → g.overflow32 = g.overflow) ∧
  (f.width = .w64 → g.overflow = false → (g.overflow32 = true ↔ outsideReference f.sign v))

/-- The slot agrees with the value and the pair beside it (R100, R154): the sign of the value at the operation's width, and
`so` the `overflow` bit if the pair is reported, else 0. -/
def SlotFits (f : SelectFields) (v : Word) (ov : Option OverflowFlags) (c : ConditionRegister) : Prop :=
  (c.lt = true ↔ signedResult f.width v < 0) ∧
  (c.gt = true ↔ 0 < signedResult f.width v) ∧
  (c.eq = true ↔ signedResult f.width v = 0) ∧
  (c.so = true ↔ ∃ g, ov = some g ∧ g.overflow = true)

/-- The output fields are those of an operation with the fields `f`: which are present (R151, R152, R153), the upper half of a
32-bit result (R151), and each present field agreeing with the others. -/
def OutputsShape (f : SelectFields) (o : Outputs) : Prop :=
  o.lookupFail = false ∧ o.ov.isSome = f.reports ∧ o.cr0.isSome = f.record ∧
  o.cr1 = none ∧ o.cr2 = none ∧ o.cr3 = none ∧ o.cr4 = none ∧ o.cr5 = none ∧ o.cr6 = none ∧ o.cr7 = none ∧
  ∃ v, o.rt = some v ∧ (f.width = .w32 → v.toNat < 2 ^ 32) ∧
    (∀ g, o.ov = some g → PairFits f v g) ∧ (∀ c, o.cr0 = some c → SlotFits f v o.ov c)

/-- A bundle of output fields that some select word can give: a lookup failure (R156), or the shape of an instruction. -/
def LegalOutputs (o : Outputs) : Prop :=
  o = lookupFailureOutputs ∨ ∃ f : SelectFields, f.wf = true ∧ OutputsShape f o

/-- The output fields belong to the values now on the input ports: a reserved code has failed the lookup; an instruction shows
exactly its own fields, and a zero divisor has given the sentinel with both overflow bits where they are reported (R171). -/
def State.Consistent (s : State) : Prop :=
  match decode s.ports.op with
  | .reserved _ => s.out = lookupFailureOutputs
  | .instr i =>
    OutputsShape i.fields s.out ∧
    (divisorIsZero i.fields.width s.ports →
      s.out.rt = some 0 ∧ ∀ g, s.out.ov = some g → g = { overflow := true, overflow32 := true })

/-- A safe run of the block is one that never stops: every list of port values is answered in full (R150, R170). -/
def answersAll (s : State) (ps : List Ports) : Prop :=
  (session s ps).length = ps.length

end Sys2Proof.Machine
end

