-- ==== Sys2Proof/Certificates/Slice0/Obligations.lean ====
section
/-!
DEFINITION. The statements for the provers. Each docstring names the rules of spec/ it formalises, and where a clause rests on a
decision of the spec (spec/92_eei_decisions.md D<n>) or on a choice of the model, the log entry that says so.
Nothing about memory is stated: the block has none (spec/20_memory.md R40), and `State` is the ports and the output fields, so
a statement of the form `exec i s = .next { s with out := o }`, or one with `t.ports = s.ports`, is the whole frame.
-/

open Sys2Proof Sys2Proof.Machine

/-! ### The select word -/

/-- Encode and decode agree in both directions (R51, R56; the layout of `op` is the spec's decision D5, log entry 7). -/
def Obligations.DecodeAndEncodeAgree : Prop :=
  (∀ i : Instr, decode (encode i) = .instr i) ∧ (∀ (op : Select) (i : Instr), decode op = .instr i → encode i = op)

/-- The 64 select words are 36 instructions and 28 reserved codes, told apart by the fields (R52, R57, derived in the spec from
decision D5; log entry 7). -/
def Obligations.SelectWordsPartition : Prop :=
  (∀ op : Select, (∃ i, decode op = .instr i) ↔
    (op.extractLsb' 0 2 = 0b00#2 ∨ op.extractLsb' 0 2 = 0b01#2 ∨
      (op.extractLsb' 0 2 = 0b10#2 ∧ op.getLsbD 4 = false ∧ op.getLsbD 5 = false))) ∧
  (∀ op : Select, decode op = .reserved .kind11 ↔ op.extractLsb' 0 2 = 0b11#2) ∧
  (∀ op : Select, decode op = .reserved .moduloVariant ↔
    op.extractLsb' 0 2 = 0b10#2 ∧ (op.getLsbD 4 = true ∨ op.getLsbD 5 = true)) ∧
  ((List.range 64).filter (fun w => (decodeTableWord 8 w).isSome)).length = 36

/-- One word of each family, written out from the fields of R51, decodes to its instruction; the neighbours of `modsd` are
reserved (R56, R57; decision D5, log entry 7). -/
def Obligations.WrittenOutWordsDecode : Prop :=
  decode 0b011100#6 = .instr .divdo ∧ decode 0b110000#6 = .instr .divwuoRc ∧ decode 0b101001#6 = .instr .divweRc ∧
  decode 0b010101#6 = .instr .divdeuo ∧ decode 0b001110#6 = .instr .modsd ∧ decode 0b000010#6 = .instr .moduw ∧
  decode 0b011110#6 = .reserved .moduloVariant ∧ decode 0b101110#6 = .reserved .moduloVariant ∧
  decode 0b001111#6 = .reserved .kind11

/-- Every mnemonic is composed as R54 says and looks up its own instruction; an instruction's name is no other's
(R54, R58; names from general knowledge, decisions D6 and D7, log entry 7). -/
def Obligations.MnemonicsNameInstructions : Prop :=
  (∀ i : Instr, lookupMnemonic i.mnemonic = some i) ∧ Instr.all.length = 36 ∧ (∀ i : Instr, i ∈ Instr.all) ∧
  Instr.mnemonic .divdeuoRc = "divdeuo." ∧ Instr.mnemonic .divwRc = "divw." ∧ Instr.mnemonic .moduw = "moduw" ∧
  lookupMnemonic "modsd." = none

/-! ### Evaluation -/

/-- The model's step is the meaning of the instruction that `op` names, and a word stored by `withFetchWord` is that
instruction (R49, R50, R150; how a word reaches the port is log entry 5). -/
def Obligations.StepRunsDecodedInstruction : Prop :=
  (∀ (s : State) (i : Instr), decode s.ports.op = .instr i → step s = exec i s) ∧
  (∀ (s : State) (nbits w : Nat) (i : Instr), decodeTableWord nbits w = some i →
    step (s.withFetchWord nbits w) = exec i (s.withFetchWord nbits w) ∧
    s.withFetchWord nbits w = { s with ports := { s.ports with op := encode i } })

/-- A reserved code completes with `lookup_fail = 1` and every other field absent, whatever the operands and whatever the
outputs were (R156, R172; decision D18; that it is a next state and not a refusal is log entry 4). -/
def Obligations.ReservedCodeFailsLookup : Prop :=
  ∀ (s : State) (why : Reserved), decode s.ports.op = .reserved why →
    step s = .next { s with out :=
      { rt := none, ov := none, cr0 := none, cr1 := none, cr2 := none, cr3 := none, cr4 := none, cr5 := none, cr6 := none,
        cr7 := none, lookupFail := true } }

/-- `lookup_fail` depends on `op` alone: it is 1 exactly for a reserved code, and operands never cause it
(R157, derived in the spec from decision D18; log entry 4). -/
def Obligations.LookupFailDependsOnSelectAlone : Prop :=
  (∀ s : State, ∃ t, step s = .next t ∧
    (t.out.lookupFail = true ↔ ∃ why, decode s.ports.op = .reserved why) ∧ (t.out.lookupFail = true ↔ t.out.rt = none)) ∧
  (∀ (s u t v : State), step s = .next t → step u = .next v → s.ports.op = u.ports.op →
    t.out.lookupFail = v.out.lookupFail)

/-- Every output is a function of the values of `op`, `ra` and `rb` alone, and equal inputs give equal outputs whatever was
evaluated between them (R27). That an evaluation is a step of a state is the model's choice (log entry 1), and that every step
answers a next state, reserved codes included, is the model's inference (log entry 4). -/
def Obligations.OutputsAreFunctionOfPorts : Prop :=
  (∃ f : Select → Word → Word → Outputs,
    ∀ s : State, step s = .next { s with out := f s.ports.op s.ports.ra s.ports.rb }) ∧
  (∀ (s : State) (p : Ports) (between : List Ports),
    ∃ o, (session s (p :: (between ++ [p]))).head? = some o ∧ (session s (p :: (between ++ [p]))).getLast? = some o)

/-- Evaluations are independent (R46): every one of a sequence is answered, with the result it has alone, from any state. That a
caller drives the ports between steps is the model's choice (log entry 1), and that a reserved code is answered by a next state
as well is the model's inference (log entry 4). -/
def Obligations.SessionsAnswerEachEvaluationAlone : Prop :=
  ∀ (s u : State) (ps : List Ports),
    answersAll s ps ∧ (session s ps).map some = ps.map (fun p => (session u [p]).head?)

/-- An evaluation is idempotent (R43): evaluating the same ports again changes nothing. That the step answers a next state from
every state, reserved codes included, is the model's inference (log entry 4). -/
def Obligations.EvaluationIsIdempotent : Prop :=
  ∀ s : State, ∃ t, step s = .next t ∧ step t = .next t

/-- No output depends on `rc` (R22, decision D20, log entry 14), and none of a 32-bit instruction depends on the upper halves
of `ra` and `rb` (R21, decision D8, log entry 8). -/
def Obligations.UnreadPortBitsHaveNoEffect : Prop :=
  (∀ (i : Instr) (s : State) (rc : Word), ∃ o,
    exec i s = .next { s with out := o } ∧
    exec i { s with ports := { s.ports with rc := rc } } =
      .next { ports := { s.ports with rc := rc }, out := o }) ∧
  (∀ (i : Instr) (s : State) (ra rb : Word), i.fields.width = .w32 →
    ra.extractLsb' 0 32 = s.ports.ra.extractLsb' 0 32 → rb.extractLsb' 0 32 = s.ports.rb.extractLsb' 0 32 →
    ∃ o, exec i s = .next { s with out := o } ∧
      exec i { s with ports := { s.ports with ra := ra, rb := rb } } =
        .next { ports := { s.ports with ra := ra, rb := rb }, out := o })

/-! ### The divider units U1 to U4 -/

/-- R71: outside the edge conditions the four dividers give the truncated quotient and the remainder exactly, with no overflow
and nothing lost by the truncation to the unit's width. -/
def Obligations.DividersExactOffTheEdge : Prop :=
  (∀ n d : HalfWord, ¬ (d = 0 ∨ (n.toInt = -2 ^ 31 ∧ d.toInt = -1)) →
    let u := signedDivider32 n d
    u.q = BitVec.ofInt 32 (n.toInt.tdiv d.toInt) ∧ u.r = BitVec.ofInt 32 (n.toInt.tmod d.toInt) ∧ u.ovn = false ∧
    u.q.toInt = n.toInt.tdiv d.toInt ∧ u.r.toInt = n.toInt.tmod d.toInt) ∧
  (∀ n d : HalfWord, d ≠ 0 →
    let u := unsignedDivider32 n d
    u.q = BitVec.ofInt 32 ((n.toNat : Int).tdiv d.toNat) ∧ u.r = BitVec.ofInt 32 ((n.toNat : Int).tmod d.toNat) ∧
    u.ovn = false ∧ (u.q.toNat : Int) = (n.toNat : Int).tdiv d.toNat ∧ (u.r.toNat : Int) = (n.toNat : Int).tmod d.toNat) ∧
  (∀ n d : Word, ¬ (d = 0 ∨ (n.toInt = -2 ^ 63 ∧ d.toInt = -1)) →
    let u := signedDivider64 n d
    u.q = BitVec.ofInt 64 (n.toInt.tdiv d.toInt) ∧ u.r = BitVec.ofInt 64 (n.toInt.tmod d.toInt) ∧ u.ovn = false ∧
    u.q.toInt = n.toInt.tdiv d.toInt ∧ u.r.toInt = n.toInt.tmod d.toInt) ∧
  (∀ n d : Word, d ≠ 0 →
    let u := unsignedDivider64 n d
    u.q = BitVec.ofInt 64 ((n.toNat : Int).tdiv d.toNat) ∧ u.r = BitVec.ofInt 64 ((n.toNat : Int).tmod d.toNat) ∧
    u.ovn = false ∧ (u.q.toNat : Int) = (n.toNat : Int).tdiv d.toNat ∧ (u.r.toNat : Int) = (n.toNat : Int).tmod d.toNat)

/-- On an edge condition, and only there, a divider gives quotient 0, remainder 0 and `ovn = 1` (R72; the zero remainder is
decision D10, log entry 18). -/
def Obligations.DividersSentinelExactlyOnTheEdge : Prop :=
  (∀ n d : HalfWord,
    ((signedDivider32 n d).ovn = true ↔ d = 0 ∨ (n = 0x80000000#32 ∧ d = 0xFFFFFFFF#32)) ∧
    ((signedDivider32 n d).ovn = true → (signedDivider32 n d).q = 0 ∧ (signedDivider32 n d).r = 0)) ∧
  (∀ n d : HalfWord,
    ((unsignedDivider32 n d).ovn = true ↔ d = 0) ∧
    ((unsignedDivider32 n d).ovn = true → (unsignedDivider32 n d).q = 0 ∧ (unsignedDivider32 n d).r = 0)) ∧
  (∀ n d : Word,
    ((signedDivider64 n d).ovn = true ↔ d = 0 ∨ (n = 0x8000000000000000#64 ∧ d = 0xFFFFFFFFFFFFFFFF#64)) ∧
    ((signedDivider64 n d).ovn = true → (signedDivider64 n d).q = 0 ∧ (signedDivider64 n d).r = 0)) ∧
  (∀ n d : Word,
    ((unsignedDivider64 n d).ovn = true ↔ d = 0) ∧
    ((unsignedDivider64 n d).ovn = true → (unsignedDivider64 n d).q = 0 ∧ (unsignedDivider64 n d).r = 0))

/-- The laws of the ordinary case for the two signed units, on their outputs read as integers: the division identity, the
remainder below the divisor, the signs of both results and the bound on the quotient (R77, derived in the spec from R71). -/
def Obligations.SignedDivisionLaws : Prop :=
  (∀ n d : HalfWord, (signedDivider32 n d).ovn = false →
    let Q := (signedDivider32 n d).q.toInt
    let R := (signedDivider32 n d).r.toInt
    n.toInt = Q * d.toInt + R ∧ |R| < |d.toInt| ∧ |Q| ≤ |n.toInt| ∧
    (0 ≤ n.toInt → 0 ≤ R) ∧ (n.toInt ≤ 0 → R ≤ 0) ∧ (0 ≤ n.toInt * d.toInt → 0 ≤ Q) ∧ (n.toInt * d.toInt ≤ 0 → Q ≤ 0)) ∧
  (∀ n d : Word, (signedDivider64 n d).ovn = false →
    let Q := (signedDivider64 n d).q.toInt
    let R := (signedDivider64 n d).r.toInt
    n.toInt = Q * d.toInt + R ∧ |R| < |d.toInt| ∧ |Q| ≤ |n.toInt| ∧
    (0 ≤ n.toInt → 0 ≤ R) ∧ (n.toInt ≤ 0 → R ≤ 0) ∧ (0 ≤ n.toInt * d.toInt → 0 ≤ Q) ∧ (n.toInt * d.toInt ≤ 0 → Q ≤ 0))

/-- The laws of the ordinary case for the two unsigned units (R77, derived in the spec from R71). -/
def Obligations.UnsignedDivisionLaws : Prop :=
  (∀ n d : HalfWord, (unsignedDivider32 n d).ovn = false →
    n.toNat = (unsignedDivider32 n d).q.toNat * d.toNat + (unsignedDivider32 n d).r.toNat ∧
    (unsignedDivider32 n d).r.toNat < d.toNat ∧ (unsignedDivider32 n d).q.toNat ≤ n.toNat) ∧
  (∀ n d : Word, (unsignedDivider64 n d).ovn = false →
    n.toNat = (unsignedDivider64 n d).q.toNat * d.toNat + (unsignedDivider64 n d).r.toNat ∧
    (unsignedDivider64 n d).r.toNat < d.toNat ∧ (unsignedDivider64 n d).q.toNat ≤ n.toNat)

/-! ### The overflow comparator U5 -/

/-- R91 and R93: `overflow` is the native bit; for a 32-bit operation `overflow32` is the same bit, whatever `q` is. -/
def Obligations.OverflowIsTheNativeBit : Prop :=
  (∀ (ovn : Bool) (q : Word) (L : Width) (S : Signedness), (overflowComparator ovn q L S).overflow = ovn) ∧
  (∀ (ovn : Bool) (q : Word) (S : Signedness), (overflowComparator ovn q .w32 S).overflow32 = ovn)

/-- `overflow32` of a 64-bit operation by the range of the operation's signedness (R92, decision D11, log entry 10) and by the
bit tests of R94. -/
def Obligations.Overflow32TestsTheReferenceRange : Prop :=
  (∀ (q : Word) (S : Signedness), (overflowComparator true q .w64 S).overflow32 = true) ∧
  (∀ q : Word, (overflowComparator false q .w64 .signed).overflow32 = false ↔ -2 ^ 31 ≤ q.toInt ∧ q.toInt ≤ 2 ^ 31 - 1) ∧
  (∀ q : Word, (overflowComparator false q .w64 .signed).overflow32 = false ↔ q = (q.extractLsb' 0 32).signExtend 64) ∧
  (∀ q : Word, (overflowComparator false q .w64 .signed).overflow32 = false ↔
    q.extractLsb' 31 33 = 0#33 ∨ q.extractLsb' 31 33 = BitVec.allOnes 33) ∧
  (∀ q : Word, (overflowComparator false q .w64 .unsigned).overflow32 = false ↔ q.toNat ≤ 2 ^ 32 - 1) ∧
  (∀ q : Word, (overflowComparator false q .w64 .unsigned).overflow32 = false ↔ q.extractLsb' 32 32 = 0#32) ∧
  (∀ q : Word, (overflowComparator false q .w64 .unsigned).overflow32 = false ↔ q = (q.extractLsb' 0 32).setWidth 64)

/-- The laws of the pair over the instructions that report it (R95, derived in the spec; D11, log entry 10): `(1, 0)` never; at
32 bits the two are equal; a zero divisor gives `(1, 1)`; and `(0, 1)` does occur at 64 bits. -/
def Obligations.OverflowPairLaws : Prop :=
  (∀ (i : Instr) (s : State), i.fields.reports = true → ∃ t g, exec i s = .next t ∧ t.out.ov = some g ∧
    ¬ (g.overflow = true ∧ g.overflow32 = false) ∧
    (i.fields.width = .w32 → g.overflow32 = g.overflow) ∧
    (divisorIsZero i.fields.width s.ports → g = { overflow := true, overflow32 := true })) ∧
  (∀ s : State, s.ports.ra = 0x0000010000000000#64 → s.ports.rb = 1 →
    DeliversPair .divdo s 0x0000010000000000#64 { overflow := false, overflow32 := true } ∧
    DeliversPair .divwo s 0 { overflow := false, overflow32 := false })

/-! ### The condition-register encoder U6 -/

/-- R100: `lt`, `gt`, `eq` compare the value with zero as a signed number of the instruction's width, `so` is copied, and the
slot is packed `lt :: gt :: eq :: so`. -/
def Obligations.ConditionSlotComparesWithZero : Prop :=
  ∀ (v : Word) (L : Width) (soIn : Bool),
    let x : Int := match L with
      | .w64 => v.toInt
      | .w32 => (v.extractLsb' 0 32).toInt
    let c := conditionRegisterEncoder v L soIn
    (c.lt = true ↔ x < 0) ∧ (c.gt = true ↔ x > 0) ∧ (c.eq = true ↔ x = 0) ∧ c.so = soIn ∧
    c.pack = BitVec.ofBool c.lt ++ BitVec.ofBool c.gt ++ BitVec.ofBool c.eq ++ BitVec.ofBool c.so

/-- Exactly one of `lt`, `gt`, `eq` is 1, `so` is independent of the value, and the slot is one of six 4-bit values (R103; the
list of values and the packing are decision D14, log entry 12). -/
def Obligations.ConditionSlotIsOneOfSix : Prop :=
  ∀ (v w : Word) (L : Width) (soIn so' : Bool),
    let c := conditionRegisterEncoder v L soIn
    (c.lt.toNat + c.gt.toNat + c.eq.toNat = 1) ∧
    (conditionRegisterEncoder w L soIn).so = c.so ∧
    ((conditionRegisterEncoder v L so').lt = c.lt ∧ (conditionRegisterEncoder v L so').gt = c.gt ∧
      (conditionRegisterEncoder v L so').eq = c.eq) ∧
    c.pack ∈ [0x8#4, 0x9#4, 0x4#4, 0x5#4, 0x2#4, 0x3#4]

/-- The comparison is signed for every record form, unsigned ones included; `divdu.` with quotient `0x8000000000000000` gets
`lt = 1` (R100, R102). That `lt` is the sign bit at the instruction's own width is R101's decision D15 and that the slot is `cr0`
is R153's D13 (log entry 12); that `eq` holds exactly when all of `rt` is 0 rests on R151's D9 (log entry 9). -/
def Obligations.RecordFormsCompareSigned : Prop :=
  (∀ (i : Instr) (s : State), i.fields.record = true → ∃ t v c,
    exec i s = .next t ∧ t.ports = s.ports ∧ t.out.rt = some v ∧ t.out.cr0 = some c ∧
    c.lt = (match i.fields.width with
      | .w64 => v.getLsbD 63
      | .w32 => v.getLsbD 31) ∧
    (c.eq = true ↔ v = 0) ∧ c.gt = (!c.lt && !c.eq)) ∧
  (∀ s : State, s.ports.ra = 0x8000000000000000#64 → s.ports.rb = 1 → ∃ t c,
    exec .divduRc s = .next t ∧ t.out.rt = some 0x8000000000000000#64 ∧ t.out.cr0 = some c ∧ c.lt = true)

/-! ### The extended division unit U7 -/

/-- R110: the conceptual dividend as an integer is the `2W`-bit vector `n :: zeros_W` read signed or unsigned, and the divisor
widened by sign extension (or by zeros) is the same number. -/
def Obligations.ConceptualDividendReadings : Prop :=
  ∀ (W : Nat) (n d : BitVec W),
    conceptualDividend .signed n = n.toInt * 2 ^ W ∧ conceptualDividend .unsigned n = (n.toNat : Int) * 2 ^ W ∧
    (n ++ 0#W).toInt = n.toInt * 2 ^ W ∧ (n ++ 0#W).toNat = n.toNat * 2 ^ W ∧
    (d.signExtend (W + W)).toInt = d.toInt ∧ (d.setWidth (W + W)).toNat = d.toNat

/-- U7 at every width: the true quotient exactly when it fits, else the sentinel with `ovn = 1` (R111; what "fits" means for a
signed operation is decision D12, log entry 11). -/
def Obligations.ExtendedQuotientExactOrSentinel : Prop :=
  (∀ (W : Nat) (n d : BitVec W), 0 < W →
    let Q := (n.toInt * 2 ^ W).tdiv d.toInt
    let e := extendedDivisionQuotientSentinel .signed n d
    ((d ≠ 0 ∧ -2 ^ (W - 1) ≤ Q ∧ Q ≤ 2 ^ (W - 1) - 1) → e.q.toInt = Q ∧ e.ovn = false) ∧
    (¬ (d ≠ 0 ∧ -2 ^ (W - 1) ≤ Q ∧ Q ≤ 2 ^ (W - 1) - 1) → e.q = 0 ∧ e.ovn = true)) ∧
  (∀ (W : Nat) (n d : BitVec W),
    let Q := n.toNat * 2 ^ W / d.toNat
    let e := extendedDivisionQuotientSentinel .unsigned n d
    ((d ≠ 0 ∧ Q ≤ 2 ^ W - 1) → e.q.toNat = Q ∧ e.ovn = false) ∧
    (¬ (d ≠ 0 ∧ Q ≤ 2 ^ W - 1) → e.q = 0 ∧ e.ovn = true))

/-- The closed forms of the fit test, at every width (R112, derived in the spec from R111; D12, log entry 11). -/
def Obligations.ExtendedFitClosedForms : Prop :=
  (∀ (W : Nat) (n d : BitVec W),
    (extendedDivisionQuotientSentinel .unsigned n d).ovn = true ↔ d = 0 ∨ d.toNat ≤ n.toNat) ∧
  (∀ (W : Nat) (n d : BitVec W), 0 < W → d ≠ 0 →
    let fits := (extendedDivisionQuotientSentinel .signed n d).ovn = false
    (n = 0 → fits) ∧
    (0 < n.toInt * d.toInt → (fits ↔ 2 * |n.toInt| < |d.toInt|)) ∧
    (n.toInt * d.toInt < 0 → (fits ↔ |n.toInt| * 2 ^ W < (2 ^ (W - 1) + 1) * |d.toInt|)) ∧
    (n.toInt * d.toInt < 0 → 2 * |n.toInt| ≤ |d.toInt| → fits))

/-- The one-directional law on magnitudes, for the signed and the unsigned unit, and the spec's two counterexamples to its
literal reading (R113, derived in the spec; 90_conflicts.md C3). -/
def Obligations.LargeDividendForcesOverflow : Prop :=
  (∀ (W : Nat) (n d : BitVec W), 0 < W → (d = 0 ∨ |d.toInt| ≤ |n.toInt|) →
    extendedDivisionQuotientSentinel .signed n d = { q := 0, ovn := true }) ∧
  (∀ (W : Nat) (n d : BitVec W), (d = 0 ∨ d.toNat ≤ n.toNat) →
    extendedDivisionQuotientSentinel .unsigned n d = { q := 0, ovn := true }) ∧
  (extendedDivisionQuotientSentinel .signed 2#64 3#64 = { q := 0, ovn := true }) ∧
  (extendedDivisionQuotientSentinel .signed 1#64 0xFFFFFFFFFFFFFFFB#64 = { q := 0xCCCCCCCCCCCCCCCD#64, ovn := false })

/-! ### The instructions, one statement per base operation -/

/-- R130: `divd`, `divd.`, `divdo`, `divdo.`. The edge conditions give the sentinel with both overflow bits; every other pair of
operands gives the exact quotient truncated toward zero, no overflow, and `overflow32` by the signed 32-bit range (that range is
the reading of D11, log entry 10). The select codes are decision D5 (log entry 7). -/
def Obligations.DivdDeliversSignedQuotient : Prop :=
  (encode .divd = 0x0C#6 ∧ encode .divdRc = 0x2C#6 ∧ encode .divdo = 0x1C#6 ∧ encode .divdoRc = 0x3C#6) ∧
  ∀ s : State,
    let n := s.ports.ra
    let d := s.ports.rb
    let edge := d = 0 ∨ (n = 0x8000000000000000#64 ∧ d = 0xFFFFFFFFFFFFFFFF#64)
    let Q := n.toInt.tdiv d.toInt
    (edge → FourDeliver .divd .divdRc .divdo .divdoRc s 0 { overflow := true, overflow32 := true }) ∧
    (¬ edge → ∃ v : Word, v.toInt = Q ∧
      FourDeliver .divd .divdRc .divdo .divdoRc s v
        { overflow := false, overflow32 := decide (Q < -2 ^ 31 ∨ 2 ^ 31 - 1 < Q) })

/-- R131: `divdu`, `divdu.`, `divduo`, `divduo.`: a zero divisor gives the sentinel with both overflow bits; any other the exact
quotient, with `overflow32` by the unsigned 32-bit range (D11, log entry 10). The select codes are decision D5 (log entry 7). -/
def Obligations.DivduDeliversUnsignedQuotient : Prop :=
  (encode .divdu = 0x04#6 ∧ encode .divduRc = 0x24#6 ∧ encode .divduo = 0x14#6 ∧ encode .divduoRc = 0x34#6) ∧
  ∀ s : State,
    let n := s.ports.ra
    let d := s.ports.rb
    let Q := n.toNat / d.toNat
    (d = 0 → FourDeliver .divdu .divduRc .divduo .divduoRc s 0 { overflow := true, overflow32 := true }) ∧
    (d ≠ 0 → ∃ v : Word, v.toNat = Q ∧
      FourDeliver .divdu .divduRc .divduo .divduoRc s v { overflow := false, overflow32 := decide (2 ^ 32 - 1 < Q) })

/-- R132: `divw`, `divw.`, `divwo`, `divwo.`, on the low halves of the ports (D8, log entry 8); the quotient stands zero-extended
on `rt` (R132's own example; D9, log entry 9), while `cr0` of the record forms still reports `lt` for a negative one. -/
def Obligations.DivwDeliversSignedQuotient : Prop :=
  (encode .divw = 0x08#6 ∧ encode .divwRc = 0x28#6 ∧ encode .divwo = 0x18#6 ∧ encode .divwoRc = 0x38#6) ∧
  ∀ s : State,
    let n := s.ports.ra.extractLsb' 0 32
    let d := s.ports.rb.extractLsb' 0 32
    let edge := d = 0 ∨ (n = 0x80000000#32 ∧ d = 0xFFFFFFFF#32)
    (edge → FourDeliver .divw .divwRc .divwo .divwoRc s 0 { overflow := true, overflow32 := true }) ∧
    (¬ edge → ∃ v : HalfWord, v.toInt = n.toInt.tdiv d.toInt ∧
      FourDeliver .divw .divwRc .divwo .divwoRc s (v.setWidth 64) { overflow := false, overflow32 := false } ∧
      (v.toInt < 0 → RecordsBelowZero .divwRc .divwoRc s))

/-- R133: `divwu`, `divwu.`, `divwuo`, `divwuo.`, on the low halves of the ports (D8, log entry 8). That the quotient stands
zero-extended on `rt` is R151's decision D9 (log entry 9); a quotient with bit 31 set gives `lt` in the record forms (R102). -/
def Obligations.DivwuDeliversUnsignedQuotient : Prop :=
  (encode .divwu = 0x00#6 ∧ encode .divwuRc = 0x20#6 ∧ encode .divwuo = 0x10#6 ∧ encode .divwuoRc = 0x30#6) ∧
  ∀ s : State,
    let n := s.ports.ra.extractLsb' 0 32
    let d := s.ports.rb.extractLsb' 0 32
    (d = 0 → FourDeliver .divwu .divwuRc .divwuo .divwuoRc s 0 { overflow := true, overflow32 := true }) ∧
    (d ≠ 0 → ∃ v : HalfWord, v.toNat = n.toNat / d.toNat ∧
      FourDeliver .divwu .divwuRc .divwuo .divwuoRc s (v.setWidth 64) { overflow := false, overflow32 := false } ∧
      (2 ^ 31 ≤ v.toNat → RecordsBelowZero .divwuRc .divwuoRc s))

/-- R114: `divde`, `divde.`, `divdeo`, `divdeo.`. The dividend stands in the upper half of a 128-bit dividend; a quotient that
does not fit 64 signed bits ("fits" is D12, log entry 11), or a zero divisor, gives the sentinel with both overflow bits;
`overflow32` of the others is by the signed 32-bit range (D11, log entry 10). -/
def Obligations.DivdeDeliversExtendedQuotient : Prop :=
  (encode .divde = 0x0D#6 ∧ encode .divdeRc = 0x2D#6 ∧ encode .divdeo = 0x1D#6 ∧ encode .divdeoRc = 0x3D#6) ∧
  ∀ s : State,
    let n := s.ports.ra
    let d := s.ports.rb
    let Q := (n.toInt * 2 ^ 64).tdiv d.toInt
    let lost := d = 0 ∨ Q < -2 ^ 63 ∨ 2 ^ 63 - 1 < Q
    (lost → FourDeliver .divde .divdeRc .divdeo .divdeoRc s 0 { overflow := true, overflow32 := true }) ∧
    (¬ lost → ∃ v : Word, v.toInt = Q ∧
      FourDeliver .divde .divdeRc .divdeo .divdeoRc s v
        { overflow := false, overflow32 := decide (Q < -2 ^ 31 ∨ 2 ^ 31 - 1 < Q) })

/-- R115: `divdeu`, `divdeu.`, `divdeuo`, `divdeuo.`: overflow exactly when the divisor is zero or the dividend is not below it;
otherwise the exact quotient, with `overflow32` by the unsigned 32-bit range (D11, log entry 10). -/
def Obligations.DivdeuDeliversExtendedQuotient : Prop :=
  (encode .divdeu = 0x05#6 ∧ encode .divdeuRc = 0x25#6 ∧ encode .divdeuo = 0x15#6 ∧ encode .divdeuoRc = 0x35#6) ∧
  ∀ s : State,
    let n := s.ports.ra
    let d := s.ports.rb
    let Q := n.toNat * 2 ^ 64 / d.toNat
    let lost := d = 0 ∨ d.toNat ≤ n.toNat
    (lost → FourDeliver .divdeu .divdeuRc .divdeuo .divdeuoRc s 0 { overflow := true, overflow32 := true }) ∧
    (¬ lost → ∃ v : Word, v.toNat = Q ∧
      FourDeliver .divdeu .divdeuRc .divdeuo .divdeuoRc s v { overflow := false, overflow32 := decide (2 ^ 32 - 1 < Q) })

/-- R116: `divwe`, `divwe.`, `divweo`, `divweo.`, on the low halves of the ports (D8, log entry 8); "fits" is D12 (log entry 11);
the quotient stands zero-extended on `rt` (R116's own examples; D9, log entry 9). -/
def Obligations.DivweDeliversExtendedQuotient : Prop :=
  (encode .divwe = 0x09#6 ∧ encode .divweRc = 0x29#6 ∧ encode .divweo = 0x19#6 ∧ encode .divweoRc = 0x39#6) ∧
  ∀ s : State,
    let n := s.ports.ra.extractLsb' 0 32
    let d := s.ports.rb.extractLsb' 0 32
    let Q := (n.toInt * 2 ^ 32).tdiv d.toInt
    let lost := d = 0 ∨ Q < -2 ^ 31 ∨ 2 ^ 31 - 1 < Q
    (lost → FourDeliver .divwe .divweRc .divweo .divweoRc s 0 { overflow := true, overflow32 := true }) ∧
    (¬ lost → ∃ v : HalfWord, v.toInt = Q ∧
      FourDeliver .divwe .divweRc .divweo .divweoRc s (v.setWidth 64) { overflow := false, overflow32 := false })

/-- R117: `divweu`, `divweu.`, `divweuo`, `divweuo.`, on the low halves of the ports (D8, log entry 8). That the quotient stands
zero-extended on `rt` is R151's decision D9 (log entry 9). -/
def Obligations.DivweuDeliversExtendedQuotient : Prop :=
  (encode .divweu = 0x01#6 ∧ encode .divweuRc = 0x21#6 ∧ encode .divweuo = 0x11#6 ∧ encode .divweuoRc = 0x31#6) ∧
  ∀ s : State,
    let n := s.ports.ra.extractLsb' 0 32
    let d := s.ports.rb.extractLsb' 0 32
    let lost := d = 0 ∨ d.toNat ≤ n.toNat
    (lost → FourDeliver .divweu .divweuRc .divweuo .divweuoRc s 0 { overflow := true, overflow32 := true }) ∧
    (¬ lost → ∃ v : HalfWord, v.toNat = n.toNat * 2 ^ 32 / d.toNat ∧
      FourDeliver .divweu .divweuRc .divweuo .divweuoRc s (v.setWidth 64) { overflow := false, overflow32 := false })

/-- R140: `modsd`: 0 on an edge condition (D10, log entry 18), else the remainder with the dividend's sign; `rt` is the only field
present. -/
def Obligations.ModsdDeliversSignedRemainder : Prop :=
  encode .modsd = 0x0E#6 ∧
  ∀ s : State,
    let n := s.ports.ra
    let d := s.ports.rb
    let edge := d = 0 ∨ (n = 0x8000000000000000#64 ∧ d = 0xFFFFFFFFFFFFFFFF#64)
    (edge → DeliversOnly .modsd s 0) ∧
    (¬ edge → ∃ v : Word, v.toInt = n.toInt - d.toInt * n.toInt.tdiv d.toInt ∧ DeliversOnly .modsd s v)

/-- R141: `modud`: 0 for a zero divisor (D10, log entry 18), else the remainder; `rt` is the only field present. -/
def Obligations.ModudDeliversUnsignedRemainder : Prop :=
  encode .modud = 0x06#6 ∧
  ∀ s : State,
    let n := s.ports.ra
    let d := s.ports.rb
    (d = 0 → DeliversOnly .modud s 0) ∧ (d ≠ 0 → ∃ v : Word, v.toNat = n.toNat % d.toNat ∧ DeliversOnly .modud s v)

/-- R142: `modsw`, on the low halves of the ports (D8, log entry 8); a negative remainder is not sign extended (R142's own example;
D9, log entry 9); `rt` is the only field present. -/
def Obligations.ModswDeliversSignedRemainder : Prop :=
  encode .modsw = 0x0A#6 ∧
  ∀ s : State,
    let n := s.ports.ra.extractLsb' 0 32
    let d := s.ports.rb.extractLsb' 0 32
    let edge := d = 0 ∨ (n = 0x80000000#32 ∧ d = 0xFFFFFFFF#32)
    (edge → DeliversOnly .modsw s 0) ∧
    (¬ edge → ∃ v : HalfWord, v.toInt = n.toInt - d.toInt * n.toInt.tdiv d.toInt ∧ DeliversOnly .modsw s (v.setWidth 64))

/-- R143: `moduw`, on the low halves of the ports (D8, log entry 8). That the remainder stands zero-extended on `rt` is R151's
decision D9 (log entry 9); `rt` is the only field present. -/
def Obligations.ModuwDeliversUnsignedRemainder : Prop :=
  encode .moduw = 0x02#6 ∧
  ∀ s : State,
    let n := s.ports.ra.extractLsb' 0 32
    let d := s.ports.rb.extractLsb' 0 32
    (d = 0 → DeliversOnly .moduw s 0) ∧
    (d ≠ 0 → ∃ v : HalfWord, v.toNat = n.toNat % d.toNat ∧ DeliversOnly .moduw s (v.setWidth 64))

/-! ### Result assembly -/

/-- Which fields every one of the 36 instructions makes present, and the whole frame: the ports stay, `lookup_fail` is 0, `rt`
is present with a zero upper half for a 32-bit instruction (R151, decision D9, log entry 9), the pair exactly when `OE = 1`
(R152, decision D6, log entry 7), `cr0` exactly when `Rc = 1` and `cr1` to `cr7` never (R153, decision D13, log entry 12). -/
def Obligations.EachInstructionFillsItsFields : Prop :=
  ∀ (i : Instr) (s : State), ∃ o v,
    exec i s = .next { s with out := o } ∧ o.lookupFail = false ∧
    o.rt = some v ∧ (i.fields.width = .w32 → v.extractLsb' 32 32 = 0#32) ∧
    o.ov.isSome = i.fields.reports ∧ o.cr0.isSome = i.fields.record ∧
    o.cr1 = none ∧ o.cr2 = none ∧ o.cr3 = none ∧ o.cr4 = none ∧ o.cr5 = none ∧ o.cr6 = none ∧ o.cr7 = none

/-- `cr0` of a record form is the slot of the value on `rt` at the instruction's width, with `so` the evaluation's own
`overflow` when the pair is reported (R154) and 0 when it is not (decision D16, log entry 13; width: D15, log entry 12). -/
def Obligations.RecordSlotFollowsResult : Prop :=
  ∀ (i : Instr) (s : State), i.fields.record = true → ∃ t v,
    exec i s = .next t ∧ t.ports = s.ports ∧ t.out.rt = some v ∧
    (i.fields.reports = false → t.out.ov = none ∧ t.out.cr0 = some (conditionRegisterEncoder v i.fields.width false)) ∧
    (i.fields.reports = true → ∃ g, t.out.ov = some g ∧
      t.out.cr0 = some (conditionRegisterEncoder v i.fields.width g.overflow))

/-- Two instructions with the same `K`, `L`, `S` agree on every field they both show, except that `so` of `cr0` is `overflow`
in the `o.` variant and 0 in the `.` variant (R155, derived in the spec; D10 and D16, log entries 18 and 13). -/
def Obligations.VariantsAgreeOnSharedFields : Prop :=
  ∀ (i j : Instr) (s : State), i.fields.kind = j.fields.kind → i.fields.width = j.fields.width →
    i.fields.sign = j.fields.sign → ∃ t u,
      exec i s = .next t ∧ exec j s = .next u ∧ t.out.rt = u.out.rt ∧
      (∀ g g', t.out.ov = some g → u.out.ov = some g' → g = g') ∧
      (∀ c c', t.out.cr0 = some c → u.out.cr0 = some c' →
        c.lt = c'.lt ∧ c.gt = c'.gt ∧ c.eq = c'.eq ∧
        (∀ g, t.out.ov = some g → u.out.ov = none → c.so = g.overflow ∧ c'.so = false))

/-- R144: no modulo instruction ever carries an overflow pair or a condition slot, and the codes that would spell a variant of
one are reserved. -/
def Obligations.ModuloCarriesOnlyItsValue : Prop :=
  (∀ (i : Instr) (s : State), i ∈ [Instr.modsd, .modud, .modsw, .moduw] → ∃ v,
    exec i s = .next { s with out :=
      { rt := some v, ov := none, cr0 := none, cr1 := none, cr2 := none, cr3 := none, cr4 := none, cr5 := none, cr6 := none,
        cr7 := none, lookupFail := false } } ∧
    (divisorIsZero i.fields.width s.ports → v = 0)) ∧
  (∀ op : Select, op.extractLsb' 0 2 = 0b10#2 → (op.getLsbD 4 = true ∨ op.getLsbD 5 = true) →
    decode op = .reserved .moduloVariant)

/-- The plain divide and the modulo of one width and signedness, on the same operands: off the edge conditions
`a = Q * b + R` with `R` of the dividend's sign or below the divisor; on an edge condition both values are 0 (R145, derived in
the spec; D10, log entry 18). -/
def Obligations.DivideAndModuloRecombine : Prop :=
  ∀ s : State, ∃ qd rd qu ru : Word, ∃ qw rw qx rx : HalfWord,
    (Delivers .divd s qd ∧ Delivers .modsd s rd ∧ Delivers .divdu s qu ∧ Delivers .modud s ru ∧
      Delivers .divw s (qw.setWidth 64) ∧ Delivers .modsw s (rw.setWidth 64) ∧
      Delivers .divwu s (qx.setWidth 64) ∧ Delivers .moduw s (rx.setWidth 64)) ∧
    (let a := s.ports.ra.toInt
     let b := s.ports.rb.toInt
     if b = 0 ∨ (a = -2 ^ 63 ∧ b = -1) then qd = 0 ∧ rd = 0
     else a = qd.toInt * b + rd.toInt ∧ |rd.toInt| < |b| ∧ 0 ≤ rd.toInt * a) ∧
    (let a := s.ports.ra.toNat
     let b := s.ports.rb.toNat
     if b = 0 then qu = 0 ∧ ru = 0 else a = qu.toNat * b + ru.toNat ∧ ru.toNat < b) ∧
    (let a := (s.ports.ra.extractLsb' 0 32).toInt
     let b := (s.ports.rb.extractLsb' 0 32).toInt
     if b = 0 ∨ (a = -2 ^ 31 ∧ b = -1) then qw = 0 ∧ rw = 0
     else a = qw.toInt * b + rw.toInt ∧ |rw.toInt| < |b| ∧ 0 ≤ rw.toInt * a) ∧
    (let a := (s.ports.ra.extractLsb' 0 32).toNat
     let b := (s.ports.rb.extractLsb' 0 32).toNat
     if b = 0 then qx = 0 ∧ rx = 0 else a = qx.toNat * b + rx.toNat ∧ rx.toNat < b)

/-- R171: division by zero does not trap. A zero divisor, signed `MIN_W` by -1, and an extended quotient that does not fit are
ordinary results: `rt = 0`, and `overflow = overflow32 = 1` where present. -/
def Obligations.DivisionByZeroIsAnOrdinaryResult : Prop :=
  (∀ (i : Instr) (s : State), divisorIsZero i.fields.width s.ports →
    ∃ t, exec i s = .next t ∧ t.ports = s.ports ∧ t.out.rt = some 0 ∧
      ∀ g, t.out.ov = some g → g = { overflow := true, overflow32 := true }) ∧
  (∀ (i : Instr) (s : State), i.fields.sign = .signed →
    (match i.fields.width with
      | .w64 => s.ports.ra = 0x8000000000000000#64 ∧ s.ports.rb = 0xFFFFFFFFFFFFFFFF#64
      | .w32 => s.ports.ra.extractLsb' 0 32 = 0x80000000#32 ∧ s.ports.rb.extractLsb' 0 32 = 0xFFFFFFFF#32) →
    ∃ t, exec i s = .next t ∧ t.ports = s.ports ∧ t.out.rt = some 0 ∧
      ∀ g, t.out.ov = some g → g = { overflow := true, overflow32 := true }) ∧
  (∀ (i : Instr) (s : State), i.fields.kind = .extendedDivide →
    (match i.fields.width, i.fields.sign with
      | .w64, .signed =>
        let Q := (s.ports.ra.toInt * 2 ^ 64).tdiv s.ports.rb.toInt
        Q < -2 ^ 63 ∨ 2 ^ 63 - 1 < Q
      | .w64, .unsigned => 2 ^ 64 - 1 < s.ports.ra.toNat * 2 ^ 64 / s.ports.rb.toNat
      | .w32, .signed =>
        let Q := ((s.ports.ra.extractLsb' 0 32).toInt * 2 ^ 32).tdiv (s.ports.rb.extractLsb' 0 32).toInt
        Q < -2 ^ 31 ∨ 2 ^ 31 - 1 < Q
      | .w32, .unsigned =>
        2 ^ 32 - 1 < (s.ports.ra.extractLsb' 0 32).toNat * 2 ^ 32 / (s.ports.rb.extractLsb' 0 32).toNat) →
    ∃ t, exec i s = .next t ∧ t.ports = s.ports ∧ t.out.rt = some 0 ∧
      ∀ g, t.out.ov = some g → g = { overflow := true, overflow32 := true })

/-! ### The legacy view and the wires -/

/-- The legacy divide view is the same evaluation under other names: its twelve mnemonics answer the value and the pair that
the step gives for the same `op`, from any state, and no other mnemonic answers (R158, decision D19, log entry 15). -/
def Obligations.LegacyViewIsTheSameEvaluation : Prop :=
  (∀ (i : Instr) (x : DivInput), (evaluateDiv i x).isSome = true ↔
    i ∈ [Instr.divdo, .divduo, .divwo, .divwuo, .divdeo, .divdeuo, .divweo, .divweuo, .modsd, .modud, .modsw, .moduw]) ∧
  (∀ (i : Instr) (x : DivInput) (r : DivResult) (s : State), evaluateDiv i x = some r →
    ∃ t, step (s.drive { op := encode i, ra := x.dividend, rb := x.divisor, rc := x.resultPrev }) = .next t ∧
      t.out.rt = some r.value ∧ t.out.ov = r.flags ∧ (r.flags = none ↔ i.fields.kind = .modulo))

/-- An absent field has presence 0 and zeros on its value wires; a present one carries its value (R25, decision D17, log
entry 16; the bits of a slot are R26, decision D14, log entry 12). -/
def Obligations.AbsentFieldsDriveZeroWires : Prop :=
  ∀ o : Outputs,
    (o.rt = none → o.wires.rtValid = false ∧ o.wires.rt = 0) ∧
    (∀ v, o.rt = some v → o.wires.rtValid = true ∧ o.wires.rt = v) ∧
    (o.ov = none → o.wires.ovValid = false ∧ o.wires.overflow = false ∧ o.wires.overflow32 = false) ∧
    (∀ g, o.ov = some g → o.wires.ovValid = true ∧ o.wires.overflow = g.overflow ∧ o.wires.overflow32 = g.overflow32) ∧
    (∀ slot ∈ [(0, o.cr0, o.wires.cr0), (1, o.cr1, o.wires.cr1), (2, o.cr2, o.wires.cr2), (3, o.cr3, o.wires.cr3),
        (4, o.cr4, o.wires.cr4), (5, o.cr5, o.wires.cr5), (6, o.cr6, o.wires.cr6), (7, o.cr7, o.wires.cr7)],
      (slot.2.1 = none → o.wires.crValid.getLsbD slot.1 = false ∧ slot.2.2 = 0) ∧
      (∀ c, slot.2.1 = some c → o.wires.crValid.getLsbD slot.1 = true ∧ slot.2.2.getLsbD 3 = c.lt ∧
        slot.2.2.getLsbD 2 = c.gt ∧ slot.2.2.getLsbD 1 = c.eq ∧ slot.2.2.getLsbD 0 = c.so)) ∧
    o.wires.lookupFail = o.lookupFail

/-- The wires tell every bundle of output fields apart, absent fields from zero ones included (R10, R25, R180; decision D17,
log entry 16). -/
def Obligations.WiresDetermineTheFields : Prop :=
  ∀ o o' : Outputs, o.wires = o'.wires → o = o'

/-! ### The whole machine -/

/-- The invariant that every step keeps: the output fields belong to the values on the input ports and agree with one another.
Derived from R92, R93, R95, R100, R151 to R156 and R171, and so from the spec's decisions in log entries 7 to 13; that ports and
outputs are a state is log entry 1 and that a reserved code is a next state is log entry 4. -/
def Obligations.EveryStepKeepsConsistency : Prop :=
  ∀ s t : State, s.Consistent → step s = .next t → t.Consistent

/-- The state after reset is consistent. Its port values are the model's choice (log entry 2) and its output fields the
model's inference from R34 (log entry 3). -/
def Obligations.ResetIsConsistent : Prop :=
  State.reset.Consistent ∧ step State.reset = .next State.reset

/-- Whatever state a caller starts from and whatever it drives, every result it reads is a legal bundle: a lookup failure or
the shape of one of the 36 instructions (R150, R156; log entries 7 to 13). That a caller drives the ports between steps is log
entry 1 and that a lookup failure is one of the results is log entry 4. -/
def Obligations.SessionsShowOnlyLegalOutputs : Prop :=
  ∀ (s : State) (ps : List Ports) (o : Outputs), o ∈ session s ps → LegalOutputs o

/-- The step is the bit-level design: fixed-width dividers, one double-width divider, bit tests and a wired decode give the same
outputs for every value of every port ("the spec fixes the function of each unit and nothing of its structure", R79 and R119,
decision D27; R94, R110). The bit-level design is the model's own (log entry 17), and that the step answers a next state at a
reserved code too is the model's inference (log entry 4). -/
def Obligations.BitLevelDesignIsEquivalent : Prop :=
  ∀ s : State, step s = .next { s with out := bitOutputs s.ports }
end

