-- ==== Sys2Proof/Laws/State.lean ====
section
/-!
SUPPORT. One lemma per field per update of the state and of the assembled outputs, so that no proof unfolds a record update.
-/

namespace Sys2Proof.Machine

@[simp] theorem settle_ports (s : State) (o : Outputs) : (s.settle o).ports = s.ports := rfl
@[simp] theorem settle_out (s : State) (o : Outputs) : (s.settle o).out = o := rfl
@[simp] theorem settle_settle (s : State) (o o' : Outputs) : (s.settle o).settle o' = s.settle o' := rfl
theorem settle_eq (s : State) (o : Outputs) : s.settle o = { s with out := o } := rfl

@[simp] theorem drive_ports (s : State) (p : Ports) : (s.drive p).ports = p := rfl
@[simp] theorem drive_out (s : State) (p : Ports) : (s.drive p).out = s.out := rfl

@[simp] theorem withFetchWord_op (s : State) (n w : Nat) : (s.withFetchWord n w).ports.op = BitVec.ofNat 6 w := rfl
@[simp] theorem withFetchWord_ra (s : State) (n w : Nat) : (s.withFetchWord n w).ports.ra = s.ports.ra := rfl
@[simp] theorem withFetchWord_rb (s : State) (n w : Nat) : (s.withFetchWord n w).ports.rb = s.ports.rb := rfl
@[simp] theorem withFetchWord_rc (s : State) (n w : Nat) : (s.withFetchWord n w).ports.rc = s.ports.rc := rfl
@[simp] theorem withFetchWord_out (s : State) (n w : Nat) : (s.withFetchWord n w).out = s.out := rfl

section Divide
variable {W : Nat} (L : Width) (reports record : Bool) (b : BaseResult W)

@[simp] theorem divideOutputs_rt : (divideOutputs L reports record b).rt = some (zext64 b.val) := rfl
@[simp] theorem divideOutputs_ov : (divideOutputs L reports record b).ov = if reports then some b.ovp else none := rfl
@[simp] theorem divideOutputs_cr0 : (divideOutputs L reports record b).cr0 =
    if record then some (conditionRegisterEncoder (zext64 b.val) L (reports && b.ovp.overflow)) else none := rfl
@[simp] theorem divideOutputs_cr1 : (divideOutputs L reports record b).cr1 = none := rfl
@[simp] theorem divideOutputs_cr2 : (divideOutputs L reports record b).cr2 = none := rfl
@[simp] theorem divideOutputs_cr3 : (divideOutputs L reports record b).cr3 = none := rfl
@[simp] theorem divideOutputs_cr4 : (divideOutputs L reports record b).cr4 = none := rfl
@[simp] theorem divideOutputs_cr5 : (divideOutputs L reports record b).cr5 = none := rfl
@[simp] theorem divideOutputs_cr6 : (divideOutputs L reports record b).cr6 = none := rfl
@[simp] theorem divideOutputs_cr7 : (divideOutputs L reports record b).cr7 = none := rfl
@[simp] theorem divideOutputs_lookupFail : (divideOutputs L reports record b).lookupFail = false := rfl

end Divide

section Modulo
variable {W : Nat} (v : BitVec W)

@[simp] theorem moduloOutputs_rt : (moduloOutputs v).rt = some (zext64 v) := rfl
@[simp] theorem moduloOutputs_ov : (moduloOutputs v).ov = none := rfl
@[simp] theorem moduloOutputs_cr0 : (moduloOutputs v).cr0 = none := rfl
@[simp] theorem moduloOutputs_cr1 : (moduloOutputs v).cr1 = none := rfl
@[simp] theorem moduloOutputs_cr2 : (moduloOutputs v).cr2 = none := rfl
@[simp] theorem moduloOutputs_cr3 : (moduloOutputs v).cr3 = none := rfl
@[simp] theorem moduloOutputs_cr4 : (moduloOutputs v).cr4 = none := rfl
@[simp] theorem moduloOutputs_cr5 : (moduloOutputs v).cr5 = none := rfl
@[simp] theorem moduloOutputs_cr6 : (moduloOutputs v).cr6 = none := rfl
@[simp] theorem moduloOutputs_cr7 : (moduloOutputs v).cr7 = none := rfl
@[simp] theorem moduloOutputs_lookupFail : (moduloOutputs v).lookupFail = false := rfl

end Modulo

@[simp] theorem lookupFailureOutputs_rt : lookupFailureOutputs.rt = none := rfl
@[simp] theorem lookupFailureOutputs_ov : lookupFailureOutputs.ov = none := rfl
@[simp] theorem lookupFailureOutputs_cr0 : lookupFailureOutputs.cr0 = none := rfl
@[simp] theorem lookupFailureOutputs_lookupFail : lookupFailureOutputs.lookupFail = true := rfl

end Sys2Proof.Machine
end

