-- ==== Sys2Proof/Laws/Ops.lean ====
section
/-!
SUPPORT. For each shared operation, one lemma that says once everything it can do; the provers cite these instead of unfolding
the units.
-/

namespace Sys2Proof.Machine

@[simp] theorem readInt_signed {W : Nat} (v : BitVec W) : readInt .signed v = v.toInt := rfl
@[simp] theorem readInt_unsigned {W : Nat} (v : BitVec W) : readInt .unsigned v = (v.toNat : Int) := rfl

/-- The remainder of R9 is what the truncated quotient leaves. -/
theorem tmod_eq_sub (a b : Int) : a.tmod b = a - b * a.tdiv b := by
  have := Int.mul_tdiv_add_tmod a b
  omega

/-- The signed reading of R8 by the sign bit. -/
theorem toInt_eq_msb {W : Nat} (v : BitVec W) : v.toInt = if v.msb then (v.toNat : Int) - 2 ^ W else v.toNat := by
  have := BitVec.toInt_eq_msb_cond v
  simpa using this

theorem toNat_lowWord (v : Word) : (lowWord v).toNat = v.toNat % 2 ^ 32 := by
  simp [lowWord]

theorem lowWord_eq_setWidth (v : Word) : lowWord v = v.setWidth 32 := by
  apply BitVec.eq_of_toNat_eq
  simp [lowWord]

@[simp] theorem zext64_word (v : Word) : zext64 v = v := by
  simp [zext64]

theorem toNat_zext64_half (v : HalfWord) : (zext64 v).toNat = v.toNat := by
  have := v.isLt
  simp only [zext64, BitVec.toNat_setWidth]
  omega

@[simp] theorem lowWord_zext64_half (v : HalfWord) : lowWord (zext64 v) = v := by
  apply BitVec.eq_of_toNat_eq
  rw [toNat_lowWord, toNat_zext64_half]
  exact Nat.mod_eq_of_lt v.isLt

/-- `trunc_W` loses nothing of a number in the signed range (R8). -/
theorem toInt_truncTo {W : Nat} (hW : 0 < W) {x : Int} (h1 : minInt W ≤ x) (h2 : x ≤ maxInt W) :
    (truncTo W x).toInt = x := by
  unfold truncTo minInt maxInt at *
  obtain ⟨k, rfl⟩ := Nat.exists_eq_succ_of_ne_zero (Nat.pos_iff_ne_zero.1 hW)
  rw [BitVec.toInt_ofInt]
  simp only [Nat.succ_eq_add_one, Nat.add_sub_cancel] at h1 h2
  have : ((2 ^ (k + 1) : Nat) : Int) = 2 * 2 ^ k := by push_cast; ring
  rw [Int.bmod_eq_of_le] <;> omega

/-- `trunc_W` loses nothing of a number in the unsigned range (R8). -/
theorem toNat_truncTo {W : Nat} {x : Int} (h1 : 0 ≤ x) (h2 : x ≤ umaxInt W) : ((truncTo W x).toNat : Int) = x := by
  unfold truncTo umaxInt at *
  have : ((2 ^ W : Nat) : Int) = 2 ^ W := by push_cast; ring
  rw [BitVec.toNat_ofInt, Int.toNat_of_nonneg (by apply Int.emod_nonneg; positivity)]
  exact Int.emod_eq_of_lt h1 (by omega)

/-- The signed reading stays in its range (R8). -/
theorem toInt_range {W : Nat} (v : BitVec W) : minInt W ≤ v.toInt ∧ v.toInt ≤ maxInt W := by
  have h1 := BitVec.le_toInt v
  have h2 := BitVec.toInt_lt (x := v)
  unfold minInt maxInt
  omega

/-- The edge conditions of R72 as a proposition. -/
theorem isEdge_iff {W : Nat} (S : Signedness) (n d : BitVec W) :
    isEdge S n d = true ↔
      readInt S d = 0 ∨ (S = .signed ∧ readInt S n = minInt W ∧ readInt S d = -1) := by
  unfold isEdge
  rw [Bool.or_eq_true, Bool.and_eq_true, Bool.and_eq_true, decide_eq_true_iff, decide_eq_true_iff, decide_eq_true_iff, beq_iff_eq,
    and_assoc]

theorem quotientFits_signed (W : Nat) (Q : Int) :
    quotientFits W .signed Q = true ↔ minInt W ≤ Q ∧ Q ≤ maxInt W := by
  simp [quotientFits]

theorem quotientFits_unsigned (W : Nat) (Q : Int) : quotientFits W .unsigned Q = true ↔ Q ≤ umaxInt W := by
  simp [quotientFits]

/-- Everything a divider unit can do (R71, R72). -/
theorem divider_cases {W : Nat} (S : Signedness) (n d : BitVec W) :
    (isEdge S n d = true ∧ divider S n d = { q := 0, r := 0, ovn := true }) ∨
    (isEdge S n d = false ∧ divider S n d =
      { q := truncTo W ((readInt S n).tdiv (readInt S d))
        r := truncTo W ((readInt S n).tmod (readInt S d))
        ovn := false }) := by
  unfold divider
  cases h : isEdge S n d <;> simp

/-- Everything U7 can do (R111). -/
theorem extended_cases {W : Nat} (S : Signedness) (n d : BitVec W) :
    (readInt S d = 0 ∧ extendedDivisionQuotientSentinel S n d = { q := 0, ovn := true }) ∨
    (readInt S d ≠ 0 ∧ quotientFits W S ((conceptualDividend S n).tdiv (readInt S d)) = false ∧
      extendedDivisionQuotientSentinel S n d = { q := 0, ovn := true }) ∨
    (readInt S d ≠ 0 ∧ quotientFits W S ((conceptualDividend S n).tdiv (readInt S d)) = true ∧
      extendedDivisionQuotientSentinel S n d =
        { q := truncTo W ((conceptualDividend S n).tdiv (readInt S d)), ovn := false }) := by
  unfold extendedDivisionQuotientSentinel
  by_cases h : readInt S d = 0
  · simp [h]
  · cases hf : quotientFits W S ((conceptualDividend S n).tdiv (readInt S d)) <;> simp [h, hf]

@[simp] theorem overflowComparator_overflow (ovn : Bool) (q : Word) (L : Width) (S : Signedness) :
    (overflowComparator ovn q L S).overflow = ovn := rfl
@[simp] theorem overflowComparator_w32 (ovn : Bool) (q : Word) (S : Signedness) :
    (overflowComparator ovn q .w32 S).overflow32 = ovn := rfl
@[simp] theorem overflowComparator_w64 (ovn : Bool) (q : Word) (S : Signedness) :
    (overflowComparator ovn q .w64 S).overflow32 = (ovn || !fitsReference S q) := rfl

theorem fitsReference_signed (q : Word) :
    fitsReference .signed q = true ↔ -2 ^ 31 ≤ q.toInt ∧ q.toInt ≤ 2 ^ 31 - 1 := by
  unfold fitsReference
  rw [decide_eq_true_iff]
  simp [minInt, maxInt]

theorem fitsReference_unsigned (q : Word) : fitsReference .unsigned q = true ↔ q.toNat ≤ 2 ^ 32 - 1 := by
  unfold fitsReference
  rw [decide_eq_true_iff]
  simp only [umaxInt, readInt_unsigned, Config.referenceWidth]
  omega

@[simp] theorem comparedValue_w64 (v : Word) : comparedValue v .w64 = v.toInt := rfl
@[simp] theorem comparedValue_w32 (v : Word) : comparedValue v .w32 = (lowWord v).toInt := rfl

/-- Everything U6 does with the value (R100): the three bits as propositions. -/
@[simp] theorem encoder_lt_iff (v : Word) (L : Width) (so : Bool) :
    (conditionRegisterEncoder v L so).lt = true ↔ comparedValue v L < 0 := by
  rw [conditionRegisterEncoder, decide_eq_true_iff]
@[simp] theorem encoder_gt_iff (v : Word) (L : Width) (so : Bool) :
    (conditionRegisterEncoder v L so).gt = true ↔ 0 < comparedValue v L := by
  rw [conditionRegisterEncoder, decide_eq_true_iff]
@[simp] theorem encoder_eq_iff (v : Word) (L : Width) (so : Bool) :
    (conditionRegisterEncoder v L so).eq = true ↔ comparedValue v L = 0 := by
  rw [conditionRegisterEncoder, decide_eq_true_iff]
@[simp] theorem encoder_so (v : Word) (L : Width) (so : Bool) : (conditionRegisterEncoder v L so).so = so := rfl

end Sys2Proof.Machine
end

