-- ==== Sys2Proof/Laws/Step.lean ====
section
/-!
SUPPORT. The inversion lemmas of `exec` and `step`: what a step can do, said once.
-/

namespace Sys2Proof.Machine

/-- The output fields an instruction gives for the values on the ports. -/
def instrOutputs (i : Instr) (p : Ports) : Outputs :=
  match i with
  | .divd => divideOutputs .w64 false false (divdBase p.ra p.rb)
  | .divdRc => divideOutputs .w64 false true (divdBase p.ra p.rb)
  | .divdo => divideOutputs .w64 true false (divdBase p.ra p.rb)
  | .divdoRc => divideOutputs .w64 true true (divdBase p.ra p.rb)
  | .divdu => divideOutputs .w64 false false (divduBase p.ra p.rb)
  | .divduRc => divideOutputs .w64 false true (divduBase p.ra p.rb)
  | .divduo => divideOutputs .w64 true false (divduBase p.ra p.rb)
  | .divduoRc => divideOutputs .w64 true true (divduBase p.ra p.rb)
  | .divw => divideOutputs .w32 false false (divwBase p.ra p.rb)
  | .divwRc => divideOutputs .w32 false true (divwBase p.ra p.rb)
  | .divwo => divideOutputs .w32 true false (divwBase p.ra p.rb)
  | .divwoRc => divideOutputs .w32 true true (divwBase p.ra p.rb)
  | .divwu => divideOutputs .w32 false false (divwuBase p.ra p.rb)
  | .divwuRc => divideOutputs .w32 false true (divwuBase p.ra p.rb)
  | .divwuo => divideOutputs .w32 true false (divwuBase p.ra p.rb)
  | .divwuoRc => divideOutputs .w32 true true (divwuBase p.ra p.rb)
  | .divde => divideOutputs .w64 false false (divdeBase p.ra p.rb)
  | .divdeRc => divideOutputs .w64 false true (divdeBase p.ra p.rb)
  | .divdeo => divideOutputs .w64 true false (divdeBase p.ra p.rb)
  | .divdeoRc => divideOutputs .w64 true true (divdeBase p.ra p.rb)
  | .divdeu => divideOutputs .w64 false false (divdeuBase p.ra p.rb)
  | .divdeuRc => divideOutputs .w64 false true (divdeuBase p.ra p.rb)
  | .divdeuo => divideOutputs .w64 true false (divdeuBase p.ra p.rb)
  | .divdeuoRc => divideOutputs .w64 true true (divdeuBase p.ra p.rb)
  | .divwe => divideOutputs .w32 false false (divweBase p.ra p.rb)
  | .divweRc => divideOutputs .w32 false true (divweBase p.ra p.rb)
  | .divweo => divideOutputs .w32 true false (divweBase p.ra p.rb)
  | .divweoRc => divideOutputs .w32 true true (divweBase p.ra p.rb)
  | .divweu => divideOutputs .w32 false false (divweuBase p.ra p.rb)
  | .divweuRc => divideOutputs .w32 false true (divweuBase p.ra p.rb)
  | .divweuo => divideOutputs .w32 true false (divweuBase p.ra p.rb)
  | .divweuoRc => divideOutputs .w32 true true (divweuBase p.ra p.rb)
  | .modsd => moduloOutputs (modsdBase p.ra p.rb)
  | .modud => moduloOutputs (modudBase p.ra p.rb)
  | .modsw => moduloOutputs (modswBase p.ra p.rb)
  | .moduw => moduloOutputs (moduwBase p.ra p.rb)

/-- Every instruction settles its own outputs and does nothing else. -/
theorem exec_eq_settle (i : Instr) (s : State) : exec i s = .next (s.settle (instrOutputs i s.ports)) := by
  cases i <;> rfl

/-- Everything a step can do: it runs the instruction `op` names, or fails the lookup of a reserved code. -/
theorem step_cases {s t : State} (h : step s = .next t) :
    (∃ i, decode s.ports.op = .instr i ∧ t = s.settle (instrOutputs i s.ports)) ∨
    (∃ why, decode s.ports.op = .reserved why ∧ t = s.settle lookupFailureOutputs) := by
  unfold step evaluation State.select at h
  cases hd : decode s.ports.op with
  | instr i =>
    simp only [hd, exec_eq_settle] at h
    injection h with h
    exact .inl ⟨i, rfl, h.symm⟩
  | reserved why =>
    simp only [hd] at h
    injection h with h
    exact .inr ⟨why, rfl, h.symm⟩

end Sys2Proof.Machine
end

