-- ==== Sys2Proof/Laws/PerInstr.lean ====
section
/-!
SUPPORT. The per-instruction family `RoundTrip`: the fields of every instruction are well formed and its select word decodes
back to it (spec/30_encoding.md R51, R52, R56).
-/

namespace Sys2Proof.Laws

/-- The instruction's fields name an instruction, its word has those fields, and decoding the word gives it back. -/
def RoundTrip.Statement (i : Instr) : Prop :=
  i.fields.wf = true ∧ selectFields (encode i) = i.fields ∧ decode (encode i) = .instr i

theorem RoundTrip.divd : RoundTrip.Statement .divd := ⟨rfl, rfl, rfl⟩
theorem RoundTrip.divdRc : RoundTrip.Statement .divdRc := ⟨rfl, rfl, rfl⟩
theorem RoundTrip.divdo : RoundTrip.Statement .divdo := ⟨rfl, rfl, rfl⟩
theorem RoundTrip.divdoRc : RoundTrip.Statement .divdoRc := ⟨rfl, rfl, rfl⟩
theorem RoundTrip.divdu : RoundTrip.Statement .divdu := ⟨rfl, rfl, rfl⟩
theorem RoundTrip.divduRc : RoundTrip.Statement .divduRc := ⟨rfl, rfl, rfl⟩
theorem RoundTrip.divduo : RoundTrip.Statement .divduo := ⟨rfl, rfl, rfl⟩
theorem RoundTrip.divduoRc : RoundTrip.Statement .divduoRc := ⟨rfl, rfl, rfl⟩
theorem RoundTrip.divw : RoundTrip.Statement .divw := ⟨rfl, rfl, rfl⟩
theorem RoundTrip.divwRc : RoundTrip.Statement .divwRc := ⟨rfl, rfl, rfl⟩
theorem RoundTrip.divwo : RoundTrip.Statement .divwo := ⟨rfl, rfl, rfl⟩
theorem RoundTrip.divwoRc : RoundTrip.Statement .divwoRc := ⟨rfl, rfl, rfl⟩
theorem RoundTrip.divwu : RoundTrip.Statement .divwu := ⟨rfl, rfl, rfl⟩
theorem RoundTrip.divwuRc : RoundTrip.Statement .divwuRc := ⟨rfl, rfl, rfl⟩
theorem RoundTrip.divwuo : RoundTrip.Statement .divwuo := ⟨rfl, rfl, rfl⟩
theorem RoundTrip.divwuoRc : RoundTrip.Statement .divwuoRc := ⟨rfl, rfl, rfl⟩
theorem RoundTrip.divde : RoundTrip.Statement .divde := ⟨rfl, rfl, rfl⟩
theorem RoundTrip.divdeRc : RoundTrip.Statement .divdeRc := ⟨rfl, rfl, rfl⟩
theorem RoundTrip.divdeo : RoundTrip.Statement .divdeo := ⟨rfl, rfl, rfl⟩
theorem RoundTrip.divdeoRc : RoundTrip.Statement .divdeoRc := ⟨rfl, rfl, rfl⟩
theorem RoundTrip.divdeu : RoundTrip.Statement .divdeu := ⟨rfl, rfl, rfl⟩
theorem RoundTrip.divdeuRc : RoundTrip.Statement .divdeuRc := ⟨rfl, rfl, rfl⟩
theorem RoundTrip.divdeuo : RoundTrip.Statement .divdeuo := ⟨rfl, rfl, rfl⟩
theorem RoundTrip.divdeuoRc : RoundTrip.Statement .divdeuoRc := ⟨rfl, rfl, rfl⟩
theorem RoundTrip.divwe : RoundTrip.Statement .divwe := ⟨rfl, rfl, rfl⟩
theorem RoundTrip.divweRc : RoundTrip.Statement .divweRc := ⟨rfl, rfl, rfl⟩
theorem RoundTrip.divweo : RoundTrip.Statement .divweo := ⟨rfl, rfl, rfl⟩
theorem RoundTrip.divweoRc : RoundTrip.Statement .divweoRc := ⟨rfl, rfl, rfl⟩
theorem RoundTrip.divweu : RoundTrip.Statement .divweu := ⟨rfl, rfl, rfl⟩
theorem RoundTrip.divweuRc : RoundTrip.Statement .divweuRc := ⟨rfl, rfl, rfl⟩
theorem RoundTrip.divweuo : RoundTrip.Statement .divweuo := ⟨rfl, rfl, rfl⟩
theorem RoundTrip.divweuoRc : RoundTrip.Statement .divweuoRc := ⟨rfl, rfl, rfl⟩
theorem RoundTrip.modsd : RoundTrip.Statement .modsd := ⟨rfl, rfl, rfl⟩
theorem RoundTrip.modud : RoundTrip.Statement .modud := ⟨rfl, rfl, rfl⟩
theorem RoundTrip.modsw : RoundTrip.Statement .modsw := ⟨rfl, rfl, rfl⟩
theorem RoundTrip.moduw : RoundTrip.Statement .moduw := ⟨rfl, rfl, rfl⟩

end Sys2Proof.Laws
end

