-- ==== Sys2Proof/Tests/Slice0.lean ====
section
/-!
SUPPORT. The model's own tests. Expected results are the spec's worked examples and vectors (spec/95_test_vectors.md, by their
ids), the words are written out from the fields of spec/30_encoding.md R51, and the last part shows for every statement of
Certificates/Slice0/Obligations.lean that has hypotheses a concrete input that meets them, clause by clause.
-/

namespace Sys2Proof.Tests

open Sys2Proof.Machine

/-! ### The checks of WellFormed -/

/-- `K = 11` names no kind (R57). -/
theorem test_reserved_kind_is_ill_formed :
    (SelectFields.mk false false .signed .w64 .reserved).kindExists = false ∧
    (SelectFields.mk false false .signed .w64 .reserved).wf = false := by decide

/-- A modulo operation with `OE = 1` does not exist (R55). -/
theorem test_reporting_modulo_is_ill_formed :
    (SelectFields.mk false true .signed .w64 .modulo).variantExists = false ∧
    (SelectFields.mk false true .signed .w64 .modulo).wf = false := by decide

/-- A modulo operation with `Rc = 1` does not exist (R55). -/
theorem test_record_modulo_is_ill_formed :
    (SelectFields.mk true false .unsigned .w32 .modulo).variantExists = false ∧
    (SelectFields.mk true false .unsigned .w32 .modulo).wf = false := by decide

/-- The neighbours that do exist pass both checks (R55, R56). -/
theorem test_neighbours_are_well_formed :
    (SelectFields.mk false false .signed .w64 .modulo).wf = true ∧
    (SelectFields.mk true true .unsigned .w32 .extendedDivide).wf = true := by decide

/-! ### Decoding, from words written out as `Rc OE S L KK` (R51, R56) -/

theorem test_decode_divd :
    decode 0b001100#6 = .instr .divd ∧
    decode 0b101100#6 = .instr .divdRc ∧
    decode 0b011100#6 = .instr .divdo ∧
    decode 0b111100#6 = .instr .divdoRc := by decide

theorem test_decode_divdu :
    decode 0b000100#6 = .instr .divdu ∧
    decode 0b100100#6 = .instr .divduRc ∧
    decode 0b010100#6 = .instr .divduo ∧
    decode 0b110100#6 = .instr .divduoRc := by decide

theorem test_decode_divw :
    decode 0b001000#6 = .instr .divw ∧
    decode 0b101000#6 = .instr .divwRc ∧
    decode 0b011000#6 = .instr .divwo ∧
    decode 0b111000#6 = .instr .divwoRc := by decide

theorem test_decode_divwu :
    decode 0b000000#6 = .instr .divwu ∧
    decode 0b100000#6 = .instr .divwuRc ∧
    decode 0b010000#6 = .instr .divwuo ∧
    decode 0b110000#6 = .instr .divwuoRc := by decide

theorem test_decode_divde :
    decode 0b001101#6 = .instr .divde ∧
    decode 0b101101#6 = .instr .divdeRc ∧
    decode 0b011101#6 = .instr .divdeo ∧
    decode 0b111101#6 = .instr .divdeoRc := by decide

theorem test_decode_divdeu :
    decode 0b000101#6 = .instr .divdeu ∧
    decode 0b100101#6 = .instr .divdeuRc ∧
    decode 0b010101#6 = .instr .divdeuo ∧
    decode 0b110101#6 = .instr .divdeuoRc := by decide

theorem test_decode_divwe :
    decode 0b001001#6 = .instr .divwe ∧
    decode 0b101001#6 = .instr .divweRc ∧
    decode 0b011001#6 = .instr .divweo ∧
    decode 0b111001#6 = .instr .divweoRc := by decide

theorem test_decode_divweu :
    decode 0b000001#6 = .instr .divweu ∧
    decode 0b100001#6 = .instr .divweuRc ∧
    decode 0b010001#6 = .instr .divweuo ∧
    decode 0b110001#6 = .instr .divweuoRc := by decide

theorem test_decode_modsd :
    decode 0b001110#6 = .instr .modsd := by decide

theorem test_decode_modud :
    decode 0b000110#6 = .instr .modud := by decide

theorem test_decode_modsw :
    decode 0b001010#6 = .instr .modsw := by decide

theorem test_decode_moduw :
    decode 0b000010#6 = .instr .moduw := by decide

/-- Reserved codes beside legal ones (vectors Z2 to Z4, Z6 to Z9). -/
theorem test_decode_reserved :
    decode 0b011110#6 = .reserved .moduloVariant ∧ decode 0b101110#6 = .reserved .moduloVariant ∧
    decode 0b111110#6 = .reserved .moduloVariant ∧ decode 0b010010#6 = .reserved .moduloVariant ∧
    decode 0b000011#6 = .reserved .kind11 ∧ decode 0b001111#6 = .reserved .kind11 ∧
    decode 0b111111#6 = .reserved .kind11 := by decide

/-- A word of the table is one byte; a number with a seventh bit is no value of the port (R20; log entry 6). -/
theorem test_decode_table_word :
    decodeTableWord 8 0x1D = some .divdeo ∧ decodeTableWord 8 0x1E = none ∧ decodeTableWord 8 0x4C = none := by decide

/-- The field reading of R51 agrees with the properties of R56. -/
theorem test_fields_of_words : Instr.all.all (fun i => selectFields (encode i) == i.fields && i.fields.wf) = true := by decide

/-- Mnemonics are the base name, then `o`, then `.` (R54, R56). -/
theorem test_mnemonics :
    Instr.divd.mnemonic = "divd" ∧ Instr.divdRc.mnemonic = "divd." ∧ Instr.divduo.mnemonic = "divduo" ∧
    Instr.divweuoRc.mnemonic = "divweuo." ∧ Instr.modsw.mnemonic = "modsw" ∧ lookupMnemonic "divde" = some .divde ∧
    lookupMnemonic "modsdo" = none := by decide

/-- The parameters of R6 that the model writes as numbers. -/
theorem test_parameters : Instr.all.length = Config.instructionCount ∧ Config.referenceWidth = 32 := by decide

/-! ### The units -/

/-- Vectors A3, A9, A15 and B9: truncation toward zero, the edge, and the same bits in the unsigned unit. -/
theorem test_dividers :
    signedDivider32 0xFFFFFFF9 2 = ⟨0xFFFFFFFD, 0xFFFFFFFF, false⟩ ∧ signedDivider32 0x80000000 0xFFFFFFFF = ⟨0, 0, true⟩ ∧
    signedDivider32 0x80000000 3 = ⟨0xD5555556, 0xFFFFFFFE, false⟩ ∧
    unsignedDivider32 0x80000000 0xFFFFFFFF = ⟨0, 0x80000000, false⟩ := by decide

/-- Vectors C4, C16, D3 and D8. -/
theorem test_dividers_64 :
    signedDivider64 7 0xFFFFFFFFFFFFFFFE = ⟨0xFFFFFFFFFFFFFFFD, 1, false⟩ ∧
    signedDivider64 0x7FFFFFFFFFFFFFFF 0xFFFFFFFFFFFFFFFF = ⟨0x8000000000000001, 0, false⟩ ∧
    unsignedDivider64 0xFFFFFFFFFFFFFFF9 2 = ⟨0x7FFFFFFFFFFFFFFC, 1, false⟩ ∧ unsignedDivider64 0 0 = ⟨0, 0, true⟩ := by decide

/-- Vectors V4, V6, V7, V10, V11, V14 and V19. -/
theorem test_overflow_comparator :
    overflowComparator false 0x80000000 .w64 .signed = ⟨false, true⟩ ∧
    overflowComparator false 0xFFFFFFFF80000000 .w64 .signed = ⟨false, false⟩ ∧
    overflowComparator false 0xFFFFFFFF7FFFFFFF .w64 .signed = ⟨false, true⟩ ∧
    overflowComparator false 0xFFFFFFFF .w64 .unsigned = ⟨false, false⟩ ∧
    overflowComparator false 0x100000000 .w64 .unsigned = ⟨false, true⟩ ∧
    overflowComparator false 0xFFFFFFFF .w64 .signed = ⟨false, true⟩ ∧
    overflowComparator false 0xFFFFFFFF .w32 .signed = ⟨false, false⟩ := by decide

/-- Vectors K2, K4, K7, K8, K9, K10 and K11. -/
theorem test_condition_register_encoder :
    (conditionRegisterEncoder 0 .w64 true).pack = 0b0011#4 ∧ (conditionRegisterEncoder 0x36 .w32 true).pack = 0b0101#4 ∧
    (conditionRegisterEncoder 0xFFFFFFFD .w32 false).pack = 0b1000#4 ∧
    (conditionRegisterEncoder 0xFFFFFFFD .w64 false).pack = 0b0100#4 ∧
    (conditionRegisterEncoder 0xFFFFFFFF00000000 .w32 false).pack = 0b0010#4 ∧
    (conditionRegisterEncoder 0xFFFFFFFF00000000 .w64 false).pack = 0b1000#4 ∧
    (conditionRegisterEncoder 0x80000000 .w32 true).pack = 0b1001#4 := by decide

/-- How many of the 256 pairs of 4-bit operands overflow U7 (spec/95_test_vectors.md section 2.4, after row X92). -/
def overflowingPairs (S : Signedness) : Nat :=
  ((List.range 256).filter fun k =>
    (extendedDivisionQuotientSentinel S (BitVec.ofNat 4 (k / 16)) (BitVec.ofNat 4 (k % 16))).ovn).length

theorem test_extended_unit_unsigned_count : overflowingPairs .unsigned = 136 := by decide +kernel
theorem test_extended_unit_signed_count : overflowingPairs .signed = 192 := by decide +kernel

/-! ### One evaluation per instruction -/

/-- A caller that holds the two operands on the ports, with the document's `rc` (S1 to S8). -/
def operands (ra rb : Word) : State :=
  State.reset.drive { op := 0, ra := ra, rb := rb, rc := 0x789 }

/-- The value, the pair and the packed `cr0` that an instruction leaves. -/
def shown (i : Instr) (ra rb : Word) : Option Word × Option OverflowFlags × Option (BitVec 4) :=
  match exec i (operands ra rb) with
  | .next t => (t.out.rt, t.out.ov, t.out.cr0.map ConditionRegister.pack)
  | .fault _ => (none, none, none)
  | .refused _ => (none, none, none)

theorem test_divd :
    shown .divd 0x8000000000000000 0xFFFFFFFFFFFFFFFF = (some 0x0, none, none) := by decide -- T1 to T4
theorem test_divdRc :
    shown .divdRc 0x8000000000000000 0xFFFFFFFFFFFFFFFF = (some 0x0, none, some 0b0010#4) := by decide -- T1 to T4
theorem test_divdo :
    shown .divdo 0x8000000000000000 0xFFFFFFFFFFFFFFFF = (some 0x0, some ⟨true, true⟩, none) := by decide -- T1 to T4
theorem test_divdoRc :
    shown .divdoRc 0x8000000000000000 0xFFFFFFFFFFFFFFFF = (some 0x0, some ⟨true, true⟩, some 0b0011#4) := by decide -- T1 to T4
theorem test_divdu :
    shown .divdu 0x8000000000000000 0x1 = (some 0x8000000000000000, none, none) := by decide -- T9 to T12
theorem test_divduRc :
    shown .divduRc 0x8000000000000000 0x1 = (some 0x8000000000000000, none, some 0b1000#4) := by decide -- T9 to T12
theorem test_divduo :
    shown .divduo 0x8000000000000000 0x1 = (some 0x8000000000000000, some ⟨false, true⟩, none) := by decide -- T9 to T12
theorem test_divduoRc :
    shown .divduoRc 0x8000000000000000 0x1 = (some 0x8000000000000000, some ⟨false, true⟩, some 0b1000#4) := by decide -- T9 to T12
theorem test_divw :
    shown .divw 0xFFFFFFFFFFFFFFF9 0x2 = (some 0xFFFFFFFD, none, none) := by decide -- T5 to T8
theorem test_divwRc :
    shown .divwRc 0xFFFFFFFFFFFFFFF9 0x2 = (some 0xFFFFFFFD, none, some 0b1000#4) := by decide -- T5 to T8
theorem test_divwo :
    shown .divwo 0xFFFFFFFFFFFFFFF9 0x2 = (some 0xFFFFFFFD, some ⟨false, false⟩, none) := by decide -- T5 to T8
theorem test_divwoRc :
    shown .divwoRc 0xFFFFFFFFFFFFFFF9 0x2 = (some 0xFFFFFFFD, some ⟨false, false⟩, some 0b1000#4) := by decide -- T5 to T8
theorem test_divwu :
    shown .divwu 0x5 0x0 = (some 0x0, none, none) := by decide -- T13 to T16
theorem test_divwuRc :
    shown .divwuRc 0x5 0x0 = (some 0x0, none, some 0b0010#4) := by decide -- T13 to T16
theorem test_divwuo :
    shown .divwuo 0x5 0x0 = (some 0x0, some ⟨true, true⟩, none) := by decide -- T13 to T16
theorem test_divwuoRc :
    shown .divwuoRc 0x5 0x0 = (some 0x0, some ⟨true, true⟩, some 0b0011#4) := by decide -- T13 to T16
theorem test_divde :
    shown .divde 0x2 0x3 = (some 0x0, none, none) := by decide -- T17 to T20
theorem test_divdeRc :
    shown .divdeRc 0x2 0x3 = (some 0x0, none, some 0b0010#4) := by decide -- T17 to T20
theorem test_divdeo :
    shown .divdeo 0x2 0x3 = (some 0x0, some ⟨true, true⟩, none) := by decide -- T17 to T20
theorem test_divdeoRc :
    shown .divdeoRc 0x2 0x3 = (some 0x0, some ⟨true, true⟩, some 0b0011#4) := by decide -- T17 to T20
theorem test_divdeu :
    shown .divdeu 0x1 0x3 = (some 0x5555555555555555, none, none) := by decide -- T21 to T24
theorem test_divdeuRc :
    shown .divdeuRc 0x1 0x3 = (some 0x5555555555555555, none, some 0b0100#4) := by decide -- T21 to T24
theorem test_divdeuo :
    shown .divdeuo 0x1 0x3 = (some 0x5555555555555555, some ⟨false, true⟩, none) := by decide -- T21 to T24
theorem test_divdeuoRc :
    shown .divdeuoRc 0x1 0x3 = (some 0x5555555555555555, some ⟨false, true⟩, some 0b0100#4) := by decide -- T21 to T24
theorem test_divwe :
    shown .divwe 0x1 0xFFFFFFFFFFFFFFFE = (some 0x80000000, none, none) := by decide -- T25 to T28
theorem test_divweRc :
    shown .divweRc 0x1 0xFFFFFFFFFFFFFFFE = (some 0x80000000, none, some 0b1000#4) := by decide -- T25 to T28
theorem test_divweo :
    shown .divweo 0x1 0xFFFFFFFFFFFFFFFE = (some 0x80000000, some ⟨false, false⟩, none) := by decide -- T25 to T28
theorem test_divweoRc :
    shown .divweoRc 0x1 0xFFFFFFFFFFFFFFFE = (some 0x80000000, some ⟨false, false⟩, some 0b1000#4) := by decide -- T25 to T28
theorem test_divweu :
    shown .divweu 0x1234 0x56 = (some 0x0, none, none) := by decide -- T29 to T32
theorem test_divweuRc :
    shown .divweuRc 0x1234 0x56 = (some 0x0, none, some 0b0010#4) := by decide -- T29 to T32
theorem test_divweuo :
    shown .divweuo 0x1234 0x56 = (some 0x0, some ⟨true, true⟩, none) := by decide -- T29 to T32
theorem test_divweuoRc :
    shown .divweuoRc 0x1234 0x56 = (some 0x0, some ⟨true, true⟩, some 0b0011#4) := by decide -- T29 to T32
theorem test_modsd :
    shown .modsd 0xFFFFFFFFFFFFFFF9 0x2 = (some 0xFFFFFFFFFFFFFFFF, none, none) := by decide -- M9
theorem test_modud :
    shown .modud 0x7 0xFFFFFFFFFFFFFFFE = (some 0x7, none, none) := by decide -- M14
theorem test_modsw :
    shown .modsw 0x80000000 0x3 = (some 0xFFFFFFFE, none, none) := by decide -- M55
theorem test_moduw :
    shown .moduw 0x123456789ABCDEF0 0x100000007 = (some 0x6, none, none) := by decide -- M60

theorem test_divdoRc_Q37 :
    shown .divdoRc 0xFFFFFFFF80000000 0xFFFFFFFFFFFFFFFF = (some 0x80000000, some ⟨false, true⟩, some 0b0100#4) := by decide
theorem test_divduoRc_Q58 :
    shown .divduoRc 0xFFFFFFFF 0x1 = (some 0xFFFFFFFF, some ⟨false, false⟩, some 0b0100#4) := by decide
theorem test_divwoRc_Q83 :
    shown .divwoRc 0x5 0x100000000 = (some 0x0, some ⟨true, true⟩, some 0b0011#4) := by decide
theorem test_divwuoRc_Q60 :
    shown .divwuoRc 0xFFFFFFFF 0x1 = (some 0xFFFFFFFF, some ⟨false, false⟩, some 0b1000#4) := by decide
theorem test_divdeoRc_X85 :
    shown .divdeoRc 0xFFFFFFFFFFFFFFFF 0x200000000 = (some 0xFFFFFFFF80000000, some ⟨false, false⟩, some 0b1000#4) := by decide
theorem test_divdeuoRc_X70 :
    shown .divdeuoRc 0xFFFFFFFFFFFFFFFE 0xFFFFFFFFFFFFFFFF = (some 0xFFFFFFFFFFFFFFFE, some ⟨false, true⟩, some 0b1000#4) := by decide
theorem test_divweoRc_X79 :
    shown .divweoRc 0x40000000 0x80000001 = (some 0x0, some ⟨true, true⟩, some 0b0011#4) := by decide
theorem test_divweuoRc_X76 :
    shown .divweuoRc 0x7FFFFFFF 0xFFFFFFFF = (some 0x7FFFFFFF, some ⟨false, false⟩, some 0b0100#4) := by decide
theorem test_divdo_S2 :
    shown .divdo 0x1234 0x56 = (some 0x36, some ⟨false, false⟩, none) := by decide
theorem test_divdeo_S1 :
    shown .divdeo 0x1234 0x56 = (some 0x0, some ⟨true, true⟩, none) := by decide
theorem test_divwo_S4 :
    shown .divwo 0x1234 0x56 = (some 0x36, some ⟨false, false⟩, none) := by decide
theorem test_divweo_S3 :
    shown .divweo 0x1234 0x56 = (some 0x0, some ⟨true, true⟩, none) := by decide
theorem test_modsd_M33 :
    shown .modsd 0x8000000000000000 0xFFFFFFFFFFFFFFFF = (some 0x0, none, none) := by decide
theorem test_modud_S6 :
    shown .modud 0x1234 0x56 = (some 0x10, none, none) := by decide
theorem test_modsw_I6 :
    shown .modsw 0xDEADBEEF00001234 0xCAFEF00D00000056 = (some 0x10, none, none) := by decide
theorem test_moduw_M64 :
    shown .moduw 0x5 0x100000000 = (some 0x0, none, none) := by decide

/-! ### The caller's side -/

/-- The fields of one result that the tables of section 3 list. -/
def row (o : Outputs) : Option Word × Option OverflowFlags × Bool :=
  (o.rt, o.ov, o.lookupFail)

/-- P4: a lookup failure between two legal evaluations leaves no trace. -/
theorem test_lookup_failure_leaves_no_trace :
    (session State.reset
      [⟨0x1C, 0x1234, 0x56, 0⟩, ⟨0x1E, 0x1234, 0x56, 0⟩, ⟨0x1C, 0x1234, 0x56, 0⟩]).map row =
    [(some 0x36, some ⟨false, false⟩, false), (none, none, true), (some 0x36, some ⟨false, false⟩, false)] := by decide

/-- P3, step 1: `divwo.` of -100 by 7. -/
theorem test_signed_word_record :
    (session State.reset [⟨0x38, 0xFFFFFFFFFFFFFF9C, 7, 0⟩]).map (fun o => (o.rt, o.cr0.map ConditionRegister.pack)) =
    [(some 0xFFFFFFF2, some 0b1000#4)] := by decide

/-- Z10 and Z9 through the word interface: `divdeo.` with a zero divisor, and the reserved code of all ones. -/
theorem test_step_runs_the_word :
    (match step ((operands 5 0).withFetchWord 8 0x3D) with
      | .next t => row t.out
      | .fault _ => (none, none, false)
      | .refused _ => (none, none, false)) = (some 0, some ⟨true, true⟩, false) ∧
    (match step ((operands 5 0).withFetchWord 8 0x3F) with
      | .next t => row t.out
      | .fault _ => (none, none, false)
      | .refused _ => (none, none, false)) = (none, none, true) := by decide

/-- The document's scenario through the legacy view (S1, S5), and a mnemonic the view does not have. -/
theorem test_legacy_view :
    evaluateDiv .divdeo ⟨0x1234, 0x56, 0x789⟩ = some ⟨0, some ⟨true, true⟩⟩ ∧
    evaluateDiv .modsd ⟨0x1234, 0x56, 0x789⟩ = some ⟨0x10, none⟩ ∧ evaluateDiv .divd ⟨0x1234, 0x56, 0x789⟩ = none := by decide

/-- Evaluation by mnemonic (S7), and an unknown name (R159). -/
theorem test_evaluate_by_name :
    (evaluateByName "modsw" 0x1234 0x56 0x789).map row = [(some 0x10, none, false)] ∧
    (evaluateByName "add" 1 2 3).map row = [(none, none, true)] := by decide

/-- A present zero and an absent field drive the same value wires and different presence wires (R10, R25). -/
theorem test_absent_is_not_zero :
    (moduloOutputs (0 : Word)).wires.rt = lookupFailureOutputs.wires.rt ∧
    (moduloOutputs (0 : Word)).wires.rtValid = true ∧ lookupFailureOutputs.wires.rtValid = false := by decide

/-- The slot of `divdo.` on its wires (Q37): presence in bit 0 of `cr_valid`, `gt` in bit 2. -/
theorem test_slot_wires :
    (divideOutputs .w64 true true (divdBase 0xFFFFFFFF80000000 0xFFFFFFFFFFFFFFFF)).wires.cr0 = 0b0100#4 ∧
    (divideOutputs .w64 true true (divdBase 0xFFFFFFFF80000000 0xFFFFFFFFFFFFFFFF)).wires.crValid = 1#8 := by decide

/-! ### Witnesses: inputs that meet the hypotheses of the statements, clause by clause -/

/-- The 64-bit edge condition of R72 on the ports. -/
abbrev edge64 (p : Ports) : Prop :=
  p.rb = 0 ∨ (p.ra = 0x8000000000000000#64 ∧ p.rb = 0xFFFFFFFFFFFFFFFF#64)

/-- The 32-bit edge condition of R72 on the low halves of the ports. -/
abbrev edge32 (p : Ports) : Prop :=
  p.rb.extractLsb' 0 32 = 0 ∨ (p.ra.extractLsb' 0 32 = 0x80000000#32 ∧ p.rb.extractLsb' 0 32 = 0xFFFFFFFF#32)

/-- The condition under which the signed extended divide of width 64 gives the sentinel (R111). -/
abbrev lost64 (p : Ports) : Prop :=
  p.rb = 0 ∨ (p.ra.toInt * 2 ^ 64).tdiv p.rb.toInt < -2 ^ 63 ∨ 2 ^ 63 - 1 < (p.ra.toInt * 2 ^ 64).tdiv p.rb.toInt

/-- The same at width 32. -/
abbrev lost32 (p : Ports) : Prop :=
  p.rb.extractLsb' 0 32 = 0 ∨
  ((p.ra.extractLsb' 0 32).toInt * 2 ^ 32).tdiv (p.rb.extractLsb' 0 32).toInt < -2 ^ 31 ∨
  2 ^ 31 - 1 < ((p.ra.extractLsb' 0 32).toInt * 2 ^ 32).tdiv (p.rb.extractLsb' 0 32).toInt

theorem witness_DecodeAndEncodeAgree : decode 0x3D = .instr .divdeoRc := by decide

theorem witness_StepRunsDecodedInstruction :
    decode (State.reset.drive ⟨0x3D, 5, 0, 0⟩).ports.op = .instr .divdeoRc ∧ decodeTableWord 8 0x31 = some .divweuoRc := by decide

theorem witness_ReservedCodeFailsLookup :
    decode (State.reset.drive ⟨0x3F, 5, 0, 0⟩).ports.op = .reserved .kind11 ∧
    decode (State.reset.drive ⟨0x12, 5, 0, 0⟩).ports.op = .reserved .moduloVariant := by decide

/-- Two states with the same select word and different operands, both of which step. -/
theorem witness_LookupFailDependsOnSelectAlone :
    step ⟨⟨0x1E, 5, 0, 0⟩, lookupFailureOutputs⟩ = .next ⟨⟨0x1E, 5, 0, 0⟩, lookupFailureOutputs⟩ ∧
    step ⟨⟨0x1E, 7, 2, 0⟩, lookupFailureOutputs⟩ = .next ⟨⟨0x1E, 7, 2, 0⟩, lookupFailureOutputs⟩ ∧
    (⟨0x1E, 5, 0, 0⟩ : Ports).op = (⟨0x1E, 7, 2, 0⟩ : Ports).op := ⟨rfl, rfl, rfl⟩

theorem witness_UnreadPortBitsHaveNoEffect :
    Instr.divwoRc.fields.width = .w32 ∧
    (0xDEADBEEF00001234#64).extractLsb' 0 32 = (operands 0x1234 0x56).ports.ra.extractLsb' 0 32 ∧
    (0xCAFEF00D00000056#64).extractLsb' 0 32 = (operands 0x1234 0x56).ports.rb.extractLsb' 0 32 := by decide

/-- Operands off the edge, each one step from it. -/
theorem witness_DividersExactOffTheEdge :
    ¬ ((1#32 : HalfWord) = 0 ∨ ((0x80000000#32).toInt = -2 ^ 31 ∧ (1#32).toInt = -1)) ∧
    ¬ ((0xFFFFFFFF#32 : HalfWord) = 0 ∨ ((0x80000001#32).toInt = -2 ^ 31 ∧ (0xFFFFFFFF#32).toInt = -1)) ∧
    (0xFFFFFFFF#32 : HalfWord) ≠ 0 ∧
    ¬ ((0xFFFFFFFFFFFFFFFF#64 : Word) = 0 ∨ ((0x8000000000000001#64).toInt = -2 ^ 63 ∧ (0xFFFFFFFFFFFFFFFF#64).toInt = -1)) ∧
    (1#64 : Word) ≠ 0 := by decide

theorem witness_DividersSentinelExactlyOnTheEdge :
    (signedDivider32 0x80000000 0xFFFFFFFF).ovn = true ∧ (unsignedDivider32 5 0).ovn = true ∧
    (signedDivider64 0 0).ovn = true ∧ (unsignedDivider64 0xFFFFFFFFFFFFFFFF 0).ovn = true := by decide

/-- Off the edge with a positive, a negative and a zero dividend, and operands of the same and of opposite sign. -/
theorem witness_SignedDivisionLaws :
    (signedDivider32 0x7FFFFFFF 0xFFFFFFFF).ovn = false ∧ 0 ≤ (0x7FFFFFFF#32).toInt ∧
    (0x7FFFFFFF#32).toInt * (0xFFFFFFFF#32).toInt ≤ 0 ∧
    (signedDivider32 0x80000001 0xFFFFFFFF).ovn = false ∧ (0x80000001#32).toInt ≤ 0 ∧
    0 ≤ (0x80000001#32).toInt * (0xFFFFFFFF#32).toInt ∧
    (signedDivider64 0x8000000000000000 1).ovn = false ∧ (0x8000000000000000#64).toInt ≤ 0 ∧
    (0x8000000000000000#64).toInt * (1#64).toInt ≤ 0 ∧
    (signedDivider64 0 5).ovn = false ∧ 0 ≤ (0#64).toInt ∧ 0 ≤ (0#64).toInt * (5#64).toInt := by decide

theorem witness_UnsignedDivisionLaws :
    (unsignedDivider32 0xFFFFFFFF 1).ovn = false ∧ (unsignedDivider64 0 0xFFFFFFFFFFFFFFFF).ovn = false := by decide

theorem witness_OverflowPairLaws :
    Instr.divweuoRc.fields.reports = true ∧ Instr.divweuoRc.fields.width = .w32 ∧
    divisorIsZero Instr.divweuoRc.fields.width (operands 5 0x100000000).ports ∧
    Instr.divdo.fields.reports = true ∧ divisorIsZero Instr.divdo.fields.width (operands 5 0).ports ∧
    (operands 0x0000010000000000 1).ports.ra = 0x0000010000000000#64 ∧ (operands 0x0000010000000000 1).ports.rb = 1 := by
  refine ⟨rfl, rfl, ?_, rfl, ?_, rfl, rfl⟩
  · change lowWord (0x100000000#64) = 0
    decide
  · rfl

theorem witness_RecordFormsCompareSigned :
    Instr.divduRc.fields.record = true ∧ Instr.divweoRc.fields.record = true ∧
    (operands 0x8000000000000000 1).ports.ra = 0x8000000000000000#64 ∧ (operands 0x8000000000000000 1).ports.rb = 1 := by decide

/-- At width 4: a quotient at the lowest value that fits, the first values beyond each end, and a zero divisor. -/
theorem witness_ExtendedQuotientExactOrSentinel :
    ((0xE#4 : BitVec 4) ≠ 0 ∧ -2 ^ (4 - 1) ≤ ((1#4).toInt * 2 ^ 4).tdiv (0xE#4).toInt ∧
      ((1#4).toInt * 2 ^ 4).tdiv (0xE#4).toInt ≤ 2 ^ (4 - 1) - 1) ∧
    ¬ ((2#4 : BitVec 4) ≠ 0 ∧ -2 ^ (4 - 1) ≤ ((1#4).toInt * 2 ^ 4).tdiv (2#4).toInt ∧
      ((1#4).toInt * 2 ^ 4).tdiv (2#4).toInt ≤ 2 ^ (4 - 1) - 1) ∧
    ¬ ((0xF#4 : BitVec 4) ≠ 0 ∧ -2 ^ (4 - 1) ≤ ((1#4).toInt * 2 ^ 4).tdiv (0xF#4).toInt ∧
      ((1#4).toInt * 2 ^ 4).tdiv (0xF#4).toInt ≤ 2 ^ (4 - 1) - 1) ∧
    ((0xF#4 : BitVec 4) ≠ 0 ∧ (0xE#4).toNat * 2 ^ 4 / (0xF#4).toNat ≤ 2 ^ 4 - 1) ∧
    ¬ ((0xF#4 : BitVec 4) ≠ 0 ∧ (0xF#4).toNat * 2 ^ 4 / (0xF#4).toNat ≤ 2 ^ 4 - 1) ∧
    ¬ ((0#4 : BitVec 4) ≠ 0 ∧ (0xF#4).toNat * 2 ^ 4 / (0#4).toNat ≤ 2 ^ 4 - 1) := by decide

/-- Zero, same-sign and opposite-sign dividends, on both sides of each bound. -/
theorem witness_ExtendedFitClosedForms :
    (5#4 : BitVec 4) ≠ 0 ∧ (0#4 : BitVec 4) = 0 ∧
    (0 < (1#4).toInt * (3#4).toInt ∧ 2 * |(1#4).toInt| < |(3#4).toInt|) ∧
    (0 < (1#4).toInt * (2#4).toInt ∧ ¬ 2 * |(1#4).toInt| < |(2#4).toInt|) ∧
    ((1#4).toInt * (0xE#4).toInt < 0 ∧ |(1#4).toInt| * 2 ^ 4 < (2 ^ (4 - 1) + 1) * |(0xE#4).toInt| ∧
      2 * |(1#4).toInt| ≤ |(0xE#4).toInt|) ∧
    ((1#4).toInt * (0xF#4).toInt < 0 ∧ ¬ |(1#4).toInt| * 2 ^ 4 < (2 ^ (4 - 1) + 1) * |(0xF#4).toInt|) := by decide

theorem witness_LargeDividendForcesOverflow :
    ((0#4 : BitVec 4) = 0 ∨ |(0#4).toInt| ≤ |(7#4).toInt|) ∧ ((3#4 : BitVec 4) = 0 ∨ |(3#4).toInt| ≤ |(0xD#4).toInt|) ∧
    ((0xF#4 : BitVec 4) = 0 ∨ (0xF#4).toNat ≤ (0xF#4).toNat) := by decide

/-- Both edges, and operands one step off each (R130, R140). -/
theorem witness_DivdDeliversSignedQuotient :
    edge64 (operands 5 0).ports ∧ edge64 (operands 0x8000000000000000 0xFFFFFFFFFFFFFFFF).ports ∧
    ¬ edge64 (operands 0x8000000000000001 0xFFFFFFFFFFFFFFFF).ports ∧ ¬ edge64 (operands 0x8000000000000000 1).ports := by decide

theorem witness_ModsdDeliversSignedRemainder :
    edge64 (operands 0 0).ports ∧ edge64 (operands 0x8000000000000000 0xFFFFFFFFFFFFFFFF).ports ∧
    ¬ edge64 (operands 0x8000000000000000 0xFFFFFFFFFFFFFFFE).ports := by decide

theorem witness_DivduDeliversUnsignedQuotient :
    (operands 5 0).ports.rb = 0 ∧ (operands 0x8000000000000000 0xFFFFFFFFFFFFFFFF).ports.rb ≠ 0 ∧ (operands 5 1).ports.rb ≠ 0 := by
  decide

theorem witness_ModudDeliversUnsignedRemainder :
    (operands 0xFFFFFFFFFFFFFFFF 0).ports.rb = 0 ∧ (operands 0 0xFFFFFFFFFFFFFFFF).ports.rb ≠ 0 := by decide

/-- A divisor whose low half alone is zero, the 32-bit edge, and a negative quotient off it. -/
theorem witness_DivwDeliversSignedQuotient :
    edge32 (operands 5 0x100000000).ports ∧ edge32 (operands 0x80000000 0xFFFFFFFF).ports ∧
    ¬ edge32 (operands 0x8000000000000000 0xFFFFFFFFFFFFFFFF).ports ∧ ¬ edge32 (operands 0xFFFFFFF9 2).ports ∧
    (0xFFFFFFFD#32).toInt = (0xFFFFFFF9#32).toInt.tdiv (2#32).toInt ∧ (0xFFFFFFFD#32).toInt < 0 := by decide

theorem witness_ModswDeliversSignedRemainder :
    edge32 (operands 5 0x100000000).ports ∧ edge32 (operands 0x80000000 0xFFFFFFFF).ports ∧
    ¬ edge32 (operands 0x80000001 0xFFFFFFFF).ports := by decide

/-- A zero low half, and a quotient with bit 31 set. -/
theorem witness_DivwuDeliversUnsignedQuotient :
    (operands 5 0x100000000).ports.rb.extractLsb' 0 32 = 0 ∧ (operands 0xFFFFFFFF 1).ports.rb.extractLsb' 0 32 ≠ 0 ∧
    (0xFFFFFFFF#32).toNat = (0xFFFFFFFF#32).toNat / (1#32).toNat ∧ 2 ^ 31 ≤ (0xFFFFFFFF#32).toNat := by decide

theorem witness_ModuwDeliversUnsignedRemainder :
    (operands 5 0x100000000).ports.rb.extractLsb' 0 32 = 0 ∧
    (operands 0x123456789ABCDEF0 0x100000007).ports.rb.extractLsb' 0 32 ≠ 0 := by decide

/-- A zero divisor, quotients `2^63` and `-2^64`, and the quotient `-2^63`, the lowest that fits (X33, X5, X57, X13). -/
theorem witness_DivdeDeliversExtendedQuotient :
    lost64 (operands 0 0).ports ∧ lost64 (operands 1 2).ports ∧ lost64 (operands 1 0xFFFFFFFFFFFFFFFF).ports ∧
    ¬ lost64 (operands 1 0xFFFFFFFFFFFFFFFE).ports ∧ ¬ lost64 (operands 0 5).ports := by decide

/-- The same at width 32, with the quotient `-2^31 - 1` one below the range (X48, X7, X79, X15). -/
theorem witness_DivweDeliversExtendedQuotient :
    lost32 (operands 1 0x200000000).ports ∧ lost32 (operands 1 2).ports ∧ lost32 (operands 0x40000000 0x80000001).ports ∧
    ¬ lost32 (operands 1 0xFFFFFFFE).ports := by decide

/-- A zero divisor, equal operands, and the largest dividend below the divisor (X70). -/
theorem witness_DivdeuDeliversExtendedQuotient :
    (operands 0 0).ports.rb = 0 ∧ (operands 7 7).ports.rb.toNat ≤ (operands 7 7).ports.ra.toNat ∧
    ¬ ((operands 0xFFFFFFFFFFFFFFFE 0xFFFFFFFFFFFFFFFF).ports.rb = 0 ∨
      (operands 0xFFFFFFFFFFFFFFFE 0xFFFFFFFFFFFFFFFF).ports.rb.toNat ≤
        (operands 0xFFFFFFFFFFFFFFFE 0xFFFFFFFFFFFFFFFF).ports.ra.toNat) := by decide

theorem witness_DivweuDeliversExtendedQuotient :
    (operands 1 0x200000000).ports.rb.extractLsb' 0 32 = 0 ∧
    ((operands 3 3).ports.rb.extractLsb' 0 32).toNat ≤ ((operands 3 3).ports.ra.extractLsb' 0 32).toNat ∧
    ¬ ((operands 0xFFFFFFFE 0xFFFFFFFF).ports.rb.extractLsb' 0 32 = 0 ∨
      ((operands 0xFFFFFFFE 0xFFFFFFFF).ports.rb.extractLsb' 0 32).toNat ≤
        ((operands 0xFFFFFFFE 0xFFFFFFFF).ports.ra.extractLsb' 0 32).toNat) := by decide

theorem witness_EachInstructionFillsItsFields : Instr.moduw.fields.width = .w32 ∧ Instr.divwRc.fields.width = .w32 := by decide

theorem witness_RecordSlotFollowsResult :
    (Instr.divwRc.fields.record = true ∧ Instr.divwRc.fields.reports = false) ∧
    (Instr.divdeuoRc.fields.record = true ∧ Instr.divdeuoRc.fields.reports = true) := by decide

/-- `divde.` and `divdeo.` on operands whose quotient does not fit: both have a slot, one has the pair (T18, T20). -/
theorem witness_VariantsAgreeOnSharedFields :
    Instr.divdeoRc.fields.kind = Instr.divdeRc.fields.kind ∧ Instr.divdeoRc.fields.width = Instr.divdeRc.fields.width ∧
    Instr.divdeoRc.fields.sign = Instr.divdeRc.fields.sign ∧
    (instrOutputs .divdeoRc (operands 2 3).ports).ov = some ⟨true, true⟩ ∧
    (instrOutputs .divdeRc (operands 2 3).ports).ov = none ∧
    (instrOutputs .divdeoRc (operands 2 3).ports).cr0 = some ⟨false, false, true, true⟩ ∧
    (instrOutputs .divdeRc (operands 2 3).ports).cr0 = some ⟨false, false, true, false⟩ ∧
    (instrOutputs .divdeo (operands 2 3).ports).ov = some ⟨true, true⟩ := by decide

theorem witness_ModuloCarriesOnlyItsValue :
    Instr.moduw ∈ [Instr.modsd, .modud, .modsw, .moduw] ∧
    lowWord (operands 5 0x100000000).ports.rb = 0 ∧
    ((0x3E#6).extractLsb' 0 2 = 0b10#2 ∧ ((0x3E#6).getLsbD 4 = true ∨ (0x3E#6).getLsbD 5 = true)) := by decide

/-- Each branch of the four conditionals is taken. -/
theorem witness_DivideAndModuloRecombine :
    ((operands 0x8000000000000000 0xFFFFFFFFFFFFFFFF).ports.ra.toInt = -2 ^ 63 ∧
      (operands 0x8000000000000000 0xFFFFFFFFFFFFFFFF).ports.rb.toInt = -1) ∧
    ¬ ((operands 7 0xFFFFFFFFFFFFFFFE).ports.rb.toInt = 0 ∨ (operands 7 0xFFFFFFFFFFFFFFFE).ports.rb.toInt = -1) ∧
    (operands 7 0).ports.rb.toNat = 0 ∧ ((operands 7 0x100000000).ports.rb.extractLsb' 0 32).toNat = 0 ∧
    ((operands 7 0x100000000).ports.rb.extractLsb' 0 32).toInt = 0 := by decide

/-- A zero divisor at each width, `MIN_W` by -1 at each width, and an extended quotient that does not fit in each of the four
forms, none of them with a zero divisor. -/
theorem witness_DivisionByZeroIsAnOrdinaryResult :
    divisorIsZero Instr.modsd.fields.width (operands 5 0).ports ∧
    lowWord (operands 5 0x100000000).ports.rb = 0 ∧
    (Instr.divdo.fields.sign = .signed ∧ (operands 0x8000000000000000 0xFFFFFFFFFFFFFFFF).ports.ra = 0x8000000000000000#64 ∧
      (operands 0x8000000000000000 0xFFFFFFFFFFFFFFFF).ports.rb = 0xFFFFFFFFFFFFFFFF#64) ∧
    (Instr.modsw.fields.sign = .signed ∧ (operands 0x80000000 0xFFFFFFFF).ports.ra.extractLsb' 0 32 = 0x80000000#32 ∧
      (operands 0x80000000 0xFFFFFFFF).ports.rb.extractLsb' 0 32 = 0xFFFFFFFF#32) ∧
    (Instr.divdeo.fields.kind = .extendedDivide ∧
      2 ^ 63 - 1 < ((operands 1 2).ports.ra.toInt * 2 ^ 64).tdiv (operands 1 2).ports.rb.toInt) ∧
    (Instr.divdeuo.fields.kind = .extendedDivide ∧
      2 ^ 64 - 1 < (operands 7 7).ports.ra.toNat * 2 ^ 64 / (operands 7 7).ports.rb.toNat) ∧
    (Instr.divweo.fields.kind = .extendedDivide ∧
      ((lowWord (operands 0x40000000 0x80000001).ports.ra).toInt * 2 ^ 32).tdiv
        (lowWord (operands 0x40000000 0x80000001).ports.rb).toInt < -2 ^ 31) ∧
    (Instr.divweuo.fields.kind = .extendedDivide ∧
      2 ^ 32 - 1 < (lowWord (operands 3 3).ports.ra).toNat * 2 ^ 32 / (lowWord (operands 3 3).ports.rb).toNat) := by
  refine ⟨rfl, ?_⟩
  decide

theorem witness_LegacyViewIsTheSameEvaluation :
    evaluateDiv .divdo ⟨0x1234, 0x56, 0x789⟩ = some ⟨0x36, some ⟨false, false⟩⟩ ∧
    evaluateDiv .moduw ⟨0x1234, 0x56, 0x789⟩ = some ⟨0x10, none⟩ := by decide

/-- Every field absent, and every kind of field present. -/
theorem witness_AbsentFieldsDriveZeroWires :
    (lookupFailureOutputs.rt = none ∧ lookupFailureOutputs.ov = none ∧ lookupFailureOutputs.cr0 = none ∧
      lookupFailureOutputs.cr7 = none) ∧
    (instrOutputs .divdoRc (operands 7 2).ports).rt = some 3 ∧
    (instrOutputs .divdoRc (operands 7 2).ports).ov = some ⟨false, false⟩ ∧
    (instrOutputs .divdoRc (operands 7 2).ports).cr0 = some ⟨false, true, false, false⟩ := by decide

theorem witness_WiresDetermineTheFields :
    (instrOutputs .divdoRc (operands 7 2).ports).wires = (instrOutputs .divdoRc (operands 7 2).ports).wires ∧
    (moduloOutputs (0 : Word)).wires ≠ lookupFailureOutputs.wires := by decide

/-- A failed lookup is a consistent state, and it steps. -/
theorem witness_EveryStepKeepsConsistency :
    (State.mk ⟨0x3F, 5, 0, 0⟩ lookupFailureOutputs).Consistent ∧
    step ⟨⟨0x3F, 5, 0, 0⟩, lookupFailureOutputs⟩ = .next ⟨⟨0x3F, 5, 0, 0⟩, lookupFailureOutputs⟩ := ⟨rfl, rfl⟩

/-- So is `modsd` of 7 by 2 beside its remainder 1. -/
theorem witness_EveryStepKeepsConsistency_instruction :
    (State.mk ⟨0x0E, 7, 2, 0⟩ (moduloOutputs (1 : Word))).Consistent ∧
    step ⟨⟨0x0E, 7, 2, 0⟩, moduloOutputs (1 : Word)⟩ = .next ⟨⟨0x0E, 7, 2, 0⟩, moduloOutputs (1 : Word)⟩ := by
  refine ⟨⟨⟨rfl, rfl, rfl, rfl, rfl, rfl, rfl, rfl, rfl, rfl, 1, rfl, ?_, ?_, ?_⟩, ?_⟩, rfl⟩
  · intro h
    cases h
  · intro g h
    cases h
  · intro c h
    cases h
  · intro h
    exact absurd (show (2#64 : Word) = 0 from h) (by decide)

theorem witness_SessionsShowOnlyLegalOutputs :
    moduloOutputs (1 : Word) ∈ session State.reset [⟨0x3F, 5, 0, 0⟩, ⟨0x0E, 7, 2, 0⟩] ∧
    lookupFailureOutputs ∈ session State.reset [⟨0x3F, 5, 0, 0⟩, ⟨0x0E, 7, 2, 0⟩] := by decide

end Sys2Proof.Tests
end

section
/-!
PROOF. The output wires (spec/10_state.md R23, R25, R26) determine the output fields. Every field is read back the same way:
its presence wire tells absent from present, and of a present field the value wires give the value. The eight
condition-register slots are indexed, so that this is said once for all of them.
-/

namespace Sys2Proof.Machine

/-! ### The bits of a slot -/

theorem ofBool_eq_ofBoolListLE (b : Bool) : BitVec.ofBool b = BitVec.ofBoolListLE [b] := by
  cases b <;> rfl

/-- The wires of a slot from bit 0 up: `so`, `eq`, `gt`, `lt` (R26). -/
theorem pack_getLsbD (c : ConditionRegister) (k : Nat) : c.pack.getLsbD k = [c.so, c.eq, c.gt, c.lt].getD k false := by
  have asList : c.pack = BitVec.ofBoolListLE [c.so, c.eq, c.gt, c.lt] := by
    rw [ConditionRegister.pack, ofBool_eq_ofBoolListLE c.lt]
    rfl
  rw [asList]
  exact BitVec.getLsbD_ofBoolListLE

theorem pack_injective : Function.Injective ConditionRegister.pack := by
  intro c c' h
  have bit (k : Nat) : [c.so, c.eq, c.gt, c.lt].getD k false = [c'.so, c'.eq, c'.gt, c'.lt].getD k false := by
    rw [← pack_getLsbD, ← pack_getLsbD, h]
  cases c
  cases c'
  rw [ConditionRegister.mk.injEq]
  exact ⟨bit 3, bit 2, bit 1, bit 0⟩

/-! ### The slots by index -/

/-- The field `crn`. -/
def Outputs.slot (o : Outputs) : Fin 8 → Option ConditionRegister :=
  ![o.cr0, o.cr1, o.cr2, o.cr3, o.cr4, o.cr5, o.cr6, o.cr7]

/-- The value wires of `crn`. -/
def Wires.slot (w : Wires) : Fin 8 → BitVec 4 :=
  ![w.cr0, w.cr1, w.cr2, w.cr3, w.cr4, w.cr5, w.cr6, w.cr7]

/-- The value wires of each slot come from that slot alone (R25). -/
theorem wires_slot (o : Outputs) (n : Fin 8) : o.wires.slot n = slotWires (o.slot n) := by
  fin_cases n <;> rfl

/-- Bit `n` of `cr_valid` is the presence of `crn` (R25). -/
theorem wires_crValid_getLsbD (o : Outputs) (n : Fin 8) : o.wires.crValid.getLsbD n = (o.slot n).isSome := by
  have asList : o.wires.crValid = BitVec.ofBoolListLE
      [o.cr0.isSome, o.cr1.isSome, o.cr2.isSome, o.cr3.isSome, o.cr4.isSome, o.cr5.isSome, o.cr6.isSome, o.cr7.isSome] := by
    rw [Outputs.wires, ofBool_eq_ofBoolListLE o.cr7.isSome]
    rfl
  rw [asList]
  refine BitVec.getLsbD_ofBoolListLE.trans ?_
  fin_cases n <;> rfl

/-- A bundle is its destination value, its overflow pair, its eight slots and `lookup_fail`. -/
theorem Outputs.eq_of_fields {o o' : Outputs} (rt : o.rt = o'.rt) (ov : o.ov = o'.ov) (slot : ∀ n, o.slot n = o'.slot n)
    (lookupFail : o.lookupFail = o'.lookupFail) : o = o' := by
  cases o
  cases o'
  rw [Outputs.mk.injEq]
  exact ⟨rt, ov, slot 0, slot 1, slot 2, slot 3, slot 4, slot 5, slot 6, slot 7, lookupFail⟩

/-! ### Reading a field back from its wires -/

/-- Two fields of the same presence are equal when their values agree wherever both are present. -/
theorem field_eq_of_presence {α : Type} {x y : Option α} (presence : x.isSome = y.isSome)
    (value : ∀ a b, x = some a → y = some b → a = b) : x = y := by
  cases x with
  | none => cases y with
    | none => rfl
    | some b => cases presence
  | some a => cases y with
    | none => cases presence
    | some b => rw [value a b rfl rfl]

/-- Presence and value wires determine a slot: `pack` loses nothing, and an absent slot differs in its presence. -/
theorem slot_eq_of_wires {c c' : Option ConditionRegister} (presence : c.isSome = c'.isSome)
    (value : slotWires c = slotWires c') : c = c' := by
  refine field_eq_of_presence presence fun a b ha hb => pack_injective ?_
  subst ha hb
  exact value

section Bundles
variable {o o' : Outputs}

theorem rt_eq_of_wires (h : o.wires = o'.wires) : o.rt = o'.rt := by
  refine field_eq_of_presence (congrArg Wires.rtValid h) fun a b ha hb => ?_
  have value : o.rt.getD 0 = o'.rt.getD 0 := congrArg Wires.rt h
  simpa [ha, hb] using value

theorem ov_eq_of_wires (h : o.wires = o'.wires) : o.ov = o'.ov := by
  refine field_eq_of_presence (congrArg Wires.ovValid h) fun f g hf hg => ?_
  have overflow : f.overflow = g.overflow := by
    simpa [Outputs.wires, hf, hg] using congrArg Wires.overflow h
  have overflow32 : f.overflow32 = g.overflow32 := by
    simpa [Outputs.wires, hf, hg] using congrArg Wires.overflow32 h
  cases f
  cases g
  rw [OverflowFlags.mk.injEq]
  exact ⟨overflow, overflow32⟩

theorem slots_eq_of_wires (h : o.wires = o'.wires) (n : Fin 8) : o.slot n = o'.slot n := by
  apply slot_eq_of_wires
  · rw [← wires_crValid_getLsbD, ← wires_crValid_getLsbD, h]
  · rw [← wires_slot, ← wires_slot, h]

end Bundles

/-- Settles O46: every field is read back from its presence and value wires. -/
theorem wiresDetermineTheFields : Obligations.WiresDetermineTheFields := by
  intro o o' h
  exact Outputs.eq_of_fields (rt_eq_of_wires h) (ov_eq_of_wires h) (slots_eq_of_wires h) (congrArg Wires.lookupFail h)

end Sys2Proof.Machine
end

section
/-!
PROOF. What each output wire carries for an absent and for a present field (spec/10_state.md R25, R26). The slots are taken by
index, over `Outputs.slot` and `Wires.slot`.
-/

namespace Sys2Proof.Machine

section Fields
variable {o : Outputs}

theorem rt_wires_of_absent (h : o.rt = none) : o.wires.rtValid = false ∧ o.wires.rt = 0 := by
  simp [Outputs.wires, h]

theorem rt_wires_of_present {v : Word} (h : o.rt = some v) : o.wires.rtValid = true ∧ o.wires.rt = v := by
  simp [Outputs.wires, h]

theorem ov_wires_of_absent (h : o.ov = none) :
    o.wires.ovValid = false ∧ o.wires.overflow = false ∧ o.wires.overflow32 = false := by
  simp [Outputs.wires, h]

theorem ov_wires_of_present {g : OverflowFlags} (h : o.ov = some g) :
    o.wires.ovValid = true ∧ o.wires.overflow = g.overflow ∧ o.wires.overflow32 = g.overflow32 := by
  simp [Outputs.wires, h]

theorem slot_wires_of_absent {n : Fin 8} (h : o.slot n = none) :
    o.wires.crValid.getLsbD n = false ∧ o.wires.slot n = 0 := by
  rw [wires_crValid_getLsbD, wires_slot, h]
  exact ⟨rfl, rfl⟩

theorem slot_wires_of_present {n : Fin 8} {c : ConditionRegister} (h : o.slot n = some c) :
    o.wires.crValid.getLsbD n = true ∧ o.wires.slot n = c.pack := by
  rw [wires_crValid_getLsbD, wires_slot, h]
  exact ⟨rfl, rfl⟩

end Fields

/-- The eight slots as a list of index, field and value wires. -/
theorem slots_eq_ofFn (o : Outputs) :
    [(0, o.cr0, o.wires.cr0), (1, o.cr1, o.wires.cr1), (2, o.cr2, o.wires.cr2), (3, o.cr3, o.wires.cr3),
      (4, o.cr4, o.wires.cr4), (5, o.cr5, o.wires.cr5), (6, o.cr6, o.wires.cr6), (7, o.cr7, o.wires.cr7)] =
    List.ofFn fun n : Fin 8 => ((n : Nat), o.slot n, o.wires.slot n) := rfl

/-- Settles O45, field by field; the eight slots are one case, by their index. -/
theorem absentFieldsDriveZeroWires : Obligations.AbsentFieldsDriveZeroWires := by
  intro o
  refine ⟨rt_wires_of_absent, fun _ => rt_wires_of_present, ov_wires_of_absent, fun _ => ov_wires_of_present, ?slots, rfl⟩
  case slots =>
    rw [slots_eq_ofFn]
    intro slot hslot
    obtain ⟨n, rfl⟩ := List.mem_ofFn.1 hslot
    refine ⟨slot_wires_of_absent, fun c hc => ?_⟩
    obtain ⟨valid, value⟩ := slot_wires_of_present hc
    refine ⟨valid, ?_⟩
    dsimp only
    rw [value]
    exact ⟨pack_getLsbD c 3, pack_getLsbD c 2, pack_getLsbD c 1, pack_getLsbD c 0⟩

end Sys2Proof.Machine
end

section
/-!
PROOF. One evaluation as a function of the input ports (spec/10_state.md R20 to R22, R27, R34): which ports and which bits of
them the output fields depend on, and what a session of evaluations answers.
-/

namespace Sys2Proof.Machine

/-! ### The port bits an instruction reads -/

/-- The operands are all that an instruction reads of the ports (R22). -/
theorem instrOutputs_eq_of_operands (i : Instr) {p p' : Ports} (hra : p.ra = p'.ra) (hrb : p.rb = p'.rb) :
    instrOutputs i p = instrOutputs i p' := by
  unfold instrOutputs
  rw [hra, hrb]

/-- The low halves of the operands are all that a 32-bit instruction reads of the ports (R21): each of the six base operations
takes its operands through `lowWord`. -/
theorem instrOutputs_eq_of_lowWords {i : Instr} (hw : i.fields.width = .w32) {p p' : Ports}
    (hra : lowWord p.ra = lowWord p'.ra) (hrb : lowWord p.rb = lowWord p'.rb) : instrOutputs i p = instrOutputs i p' := by
  cases i with
  | divw | divwRc | divwo | divwoRc => simp only [instrOutputs, divwBase, hra, hrb]
  | divwu | divwuRc | divwuo | divwuoRc => simp only [instrOutputs, divwuBase, hra, hrb]
  | divwe | divweRc | divweo | divweoRc => simp only [instrOutputs, divweBase, hra, hrb]
  | divweu | divweuRc | divweuo | divweuoRc => simp only [instrOutputs, divweuBase, hra, hrb]
  | modsw => simp only [instrOutputs, modswBase, hra, hrb]
  | moduw => simp only [instrOutputs, moduwBase, hra, hrb]
  | _ => cases hw

/-- Ports for which an instruction gives equal outputs are answered alike, each state keeping its own ports. -/
theorem exec_same_outputs {i : Instr} {s : State} {p : Ports} (h : instrOutputs i p = instrOutputs i s.ports) :
    ∃ o, exec i s = .next { s with out := o } ∧ exec i (s.drive p) = .next { ports := p, out := o } := by
  refine ⟨instrOutputs i s.ports, exec_eq_settle i s, ?_⟩
  rw [exec_eq_settle, drive_ports, h]
  rfl

/-- Settles O11: other values of `rc`, or of the upper halves of a 32-bit instruction's operands, leave `instrOutputs` as it
was. -/
theorem unreadPortBitsHaveNoEffect : Obligations.UnreadPortBitsHaveNoEffect := by
  constructor
  · intro i s rc
    exact exec_same_outputs (p := { s.ports with rc := rc }) (instrOutputs_eq_of_operands i rfl rfl)
  · intro i s ra rb hw hra hrb
    exact exec_same_outputs (p := { s.ports with ra := ra, rb := rb }) (instrOutputs_eq_of_lowWords hw hra hrb)

/-! ### The step as a function of `op`, `ra` and `rb` -/

section Step
variable {s : State}

theorem step_of_instr {i : Instr} (h : decode s.ports.op = .instr i) : step s = exec i s := by
  simp only [step, evaluation, State.select, h]

theorem step_of_reserved {why : Reserved} (h : decode s.ports.op = .reserved why) :
    step s = .next (s.settle lookupFailureOutputs) := by
  simp only [step, evaluation, State.select, h]

end Step

/-- The output fields of one evaluation, from the three ports that are read; `rc` is given as 0. -/
def portOutputs (op : Select) (ra rb : Word) : Outputs :=
  match decode op with
  | .instr i => instrOutputs i { op := op, ra := ra, rb := rb, rc := 0 }
  | .reserved _ => lookupFailureOutputs

theorem portOutputs_of_instr {p : Ports} {i : Instr} (h : decode p.op = .instr i) :
    portOutputs p.op p.ra p.rb = instrOutputs i p := by
  simp only [portOutputs, h]
  exact instrOutputs_eq_of_operands i rfl rfl

theorem portOutputs_of_reserved {p : Ports} {why : Reserved} (h : decode p.op = .reserved why) :
    portOutputs p.op p.ra p.rb = lookupFailureOutputs := by
  simp only [portOutputs, h]

/-- Every step answers a next state, which shows `portOutputs` of its ports and differs in nothing else (R27, R150). -/
theorem step_eq_settle (s : State) : step s = .next (s.settle (portOutputs s.ports.op s.ports.ra s.ports.rb)) := by
  cases hd : decode s.ports.op with
  | instr i => rw [step_of_instr hd, exec_eq_settle, portOutputs_of_instr hd]
  | reserved why => rw [step_of_reserved hd, portOutputs_of_reserved hd]

/-- A session answers each evaluation with the outputs of its own ports, from any state (R46). -/
theorem session_eq_map (s : State) (ps : List Ports) : session s ps = ps.map fun p => portOutputs p.op p.ra p.rb := by
  induction ps generalizing s with
  | nil => rfl
  | cons p ps ih => simp only [session, step_eq_settle, ih, drive_ports, settle_out, List.map_cons]

/-- Settles O8: the function is `portOutputs`, and a session's first and last results are its values at the same ports. -/
theorem outputsAreFunctionOfPorts : Obligations.OutputsAreFunctionOfPorts := by
  refine ⟨⟨portOutputs, step_eq_settle⟩, fun s p between => ⟨portOutputs p.op p.ra p.rb, ?_, ?_⟩⟩
  · rw [session_eq_map, List.map_cons, List.head?_cons]
  · rw [session_eq_map, ← List.cons_append, List.map_append, List.map_singleton, List.getLast?_concat]

/-! ### The state after reset -/

/-- A value that stands alone has the shape of every operation that reports no overflow and records nothing (R151 to R153). -/
theorem outputsShape_moduloOutputs {W : Nat} {f : SelectFields} {v : BitVec W} (hreports : f.reports = false)
    (hrecord : f.record = false) (hv : f.width = .w32 → (zext64 v).toNat < 2 ^ 32) : OutputsShape f (moduloOutputs v) :=
  ⟨rfl, hreports.symm, hrecord.symm, rfl, rfl, rfl, rfl, rfl, rfl, rfl, zext64 v, rfl, hv, nofun, nofun⟩

theorem decode_reset : decode State.reset.ports.op = .instr .divwu := by decide

theorem reset_out : State.reset.out = moduloOutputs (0 : HalfWord) := rfl

/-- `divwu` of 0 by 0 is on the edge of R72: its quotient is the sentinel. -/
theorem instrOutputs_reset : instrOutputs .divwu State.reset.ports = State.reset.out := by decide

/-- Settles O48: reset shows `divwu` of 0 by 0, a zero value with no other field present. -/
theorem resetIsConsistent : Obligations.ResetIsConsistent := by
  constructor
  · have shape : OutputsShape Instr.divwu.fields State.reset.out := by
      rw [reset_out]
      exact outputsShape_moduloOutputs rfl rfl fun _ => by decide
    have zeroDivisor : State.reset.out.rt = some 0 ∧
        ∀ g, State.reset.out.ov = some g → g = { overflow := true, overflow32 := true } := ⟨rfl, nofun⟩
    rw [State.Consistent, decode_reset]
    exact ⟨shape, fun _ => zeroDivisor⟩
  · rw [step_of_instr decode_reset, exec_eq_settle, instrOutputs_reset]
    rfl

end Sys2Proof.Machine
end

section
/-!
PROOF. The block keeps no memory of an evaluation (spec/20_memory.md R43, R46): evaluating again changes nothing, and no
evaluation of a session depends on the ones before it.
-/

namespace Sys2Proof.Machine

theorem session_answersAll (s : State) (ps : List Ports) : answersAll s ps := by
  rw [answersAll, session_eq_map, List.length_map]

/-- The result an evaluation has alone does not depend on the state it starts from (R46). -/
theorem session_singleton_head? (u : State) (p : Ports) : (session u [p]).head? = some (portOutputs p.op p.ra p.rb) := by
  rw [session_eq_map, List.map_singleton, List.head?_cons]

/-- Settles O9: within a session and alone, an evaluation is answered with `portOutputs` of its own ports. -/
theorem sessionsAnswerEachEvaluationAlone : Obligations.SessionsAnswerEachEvaluationAlone := by
  intro s u ps
  refine ⟨session_answersAll s ps, ?_⟩
  calc (session s ps).map some
      = ps.map fun p => some (portOutputs p.op p.ra p.rb) := by rw [session_eq_map, List.map_map]; rfl
    _ = ps.map fun p => (session u [p]).head? := by simp only [session_singleton_head?]

/-- Settles O10: a step keeps the ports, so the second one settles the outputs the first one left. -/
theorem evaluationIsIdempotent : Obligations.EvaluationIsIdempotent := by
  intro s
  refine ⟨s.settle (portOutputs s.ports.op s.ports.ra s.ports.rb), step_eq_settle s, ?_⟩
  rw [step_eq_settle, settle_ports, settle_settle]

end Sys2Proof.Machine
end

section
/-!
PROOF. The select word (spec/30_encoding.md R51 to R58). Decoding is a search of the list of R56, so it is inverted once as
membership of a row; the rows carry the encodings of their instructions, and the list holds exactly the words whose fields
are well formed. Mnemonics are searched the same way.
-/

namespace Sys2Proof

/-! ### The list of instructions -/

/-- The per-instruction facts of `Laws.RoundTrip`, as one statement. -/
theorem roundTrip : ∀ i : Instr, Laws.RoundTrip.Statement i :=
  open Laws.RoundTrip in
  @Instr.rec _ divd divdRc divdo divdoRc divdu divduRc divduo divduoRc divw divwRc divwo divwoRc divwu divwuRc divwuo divwuoRc
    divde divdeRc divdeo divdeoRc divdeu divdeuRc divdeuo divdeuoRc divwe divweRc divweo divweoRc divweu divweuRc divweuo
    divweuoRc modsd modud modsw moduw

theorem wf_fields (i : Instr) : i.fields.wf = true := (roundTrip i).1

theorem selectFields_encode (i : Instr) : selectFields (encode i) = i.fields := (roundTrip i).2.1

theorem decode_encode (i : Instr) : decode (encode i) = .instr i := (roundTrip i).2.2

/-- The binary column of R56 is the layout of R51, in every row. -/
theorem encode_instr_of_mem_opcodeTable : ∀ row ∈ opcodeTable, encode row.instr = row.op := by decide

/-- Every word with well-formed fields has its row in R56 (R52). -/
theorem exists_row_of_wf : ∀ op : Select, (selectFields op).wf = true → ∃ row ∈ opcodeTable, row.op = op := by decide

/-! ### What decoding says of a word -/

section Word
variable {op : Select} {i : Instr} {why : Reserved}

theorem decode_cases (op : Select) :
    (∃ row ∈ opcodeTable, row.op = op ∧ decode op = .instr row.instr) ∨ decode op = .reserved (reservedReason op) := by
  unfold decode
  cases hfind : opcodeTable.find? (fun row => row.op == op) with
  | none => exact .inr rfl
  | some row => exact .inl ⟨row, List.mem_of_find?_eq_some hfind, by simpa using List.find?_some hfind, rfl⟩

theorem row_of_decode (h : decode op = .instr i) : ⟨op, i⟩ ∈ opcodeTable := by
  obtain ⟨row, hmem, rfl, hrow⟩ | hreserved := decode_cases op
  · rw [hrow] at h
    cases h
    exact hmem
  · rw [hreserved] at h
    cases h

theorem encode_of_decode (h : decode op = .instr i) : encode i = op :=
  encode_instr_of_mem_opcodeTable ⟨op, i⟩ (row_of_decode h)

theorem selectFields_of_decode (h : decode op = .instr i) : selectFields op = i.fields := by
  rw [← encode_of_decode h, selectFields_encode]

/-- The decoder's search and the check on the fields agree (R52). -/
theorem decode_instr_iff_wf : (∃ i, decode op = .instr i) ↔ (selectFields op).wf = true := by
  constructor
  · rintro ⟨i, h⟩
    rw [selectFields_of_decode h, wf_fields]
  · intro hwf
    obtain ⟨row, hmem, rfl⟩ := exists_row_of_wf op hwf
    exact ⟨row.instr, by rw [← encode_instr_of_mem_opcodeTable row hmem, decode_encode]⟩

theorem decode_reserved_iff : decode op = .reserved why ↔ (selectFields op).wf = false ∧ reservedReason op = why := by
  rw [← Bool.not_eq_true, ← decode_instr_iff_wf]
  obtain ⟨row, -, -, hinstr⟩ | hreserved := decode_cases op
  · simp [hinstr]
  · simp [hreserved]

end Word

/-! ### The fields as bits -/

theorem kindOfBits_bits (k : Kind) : kindOfBits k.bits = k := by
  cases k <;> rfl

theorem bits_kindOfBits : ∀ k : BitVec 2, (kindOfBits k).bits = k := by decide

/-- A kind is read off the bits of `K` (R51). -/
theorem selectFields_kind_iff (op : Select) (k : Kind) : (selectFields op).kind = k ↔ op.extractLsb' 0 2 = k.bits := by
  constructor
  · rintro rfl
    exact (bits_kindOfBits _).symm
  · intro hbits
    exact (congrArg kindOfBits hbits).trans (kindOfBits_bits k)

theorem wf_iff_kind (f : SelectFields) :
    f.wf = true ↔
      f.kind = .plainDivide ∨ f.kind = .extendedDivide ∨ (f.kind = .modulo ∧ f.reports = false ∧ f.record = false) := by
  cases hk : f.kind <;> simp [SelectFields.wf, SelectFields.kindExists, SelectFields.variantExists, hk]

theorem reservedReason_eq_kind11_iff (op : Select) : reservedReason op = .kind11 ↔ (selectFields op).kind = .reserved := by
  simp [reservedReason]

theorem reservedReason_eq_moduloVariant_iff (op : Select) :
    reservedReason op = .moduloVariant ↔ (selectFields op).kind ≠ .reserved := by
  simp [reservedReason]

theorem decode_kind11_iff (op : Select) : decode op = .reserved .kind11 ↔ (selectFields op).kind = .reserved := by
  rw [decode_reserved_iff, reservedReason_eq_kind11_iff, and_iff_right_iff_imp, ← Bool.not_eq_true, wf_iff_kind]
  intro hk
  simp [hk]

theorem decode_moduloVariant_iff (op : Select) : decode op = .reserved .moduloVariant ↔
    (selectFields op).kind = .modulo ∧ ((selectFields op).reports = true ∨ (selectFields op).record = true) := by
  rw [decode_reserved_iff, reservedReason_eq_moduloVariant_iff, ← Bool.not_eq_true, wf_iff_kind]
  cases hk : (selectFields op).kind <;> simp [imp_iff_not_or]

/-! ### The obligations about words -/

/-- Settles O1: the rows of R56 carry the encodings of their instructions, and a word that decodes has its row. -/
theorem decodeAndEncodeAgree : Obligations.DecodeAndEncodeAgree :=
  ⟨decode_encode, fun _ _ => encode_of_decode⟩

/-- Settles O2: the decoder follows the check on the fields, and each clause reads that check on the bits. -/
theorem selectWordsPartition : Obligations.SelectWordsPartition := by
  refine ⟨fun op => ?instr, fun op => ?kind11, fun op => ?moduloVariant, ?count⟩
  case instr =>
    rw [decode_instr_iff_wf, wf_iff_kind]
    simp only [selectFields_kind_iff]
    rfl
  case kind11 => rw [decode_kind11_iff, selectFields_kind_iff]; rfl
  case moduloVariant => rw [decode_moduloVariant_iff, selectFields_kind_iff]; rfl
  case count => decide

/-- Settles O3: six of the words are encodings; the fields of the other three are not well formed. -/
theorem writtenOutWordsDecode : Obligations.WrittenOutWordsDecode :=
  ⟨decode_encode .divdo, decode_encode .divwuoRc, decode_encode .divweRc, decode_encode .divdeuo, decode_encode .modsd,
    decode_encode .moduw, decode_reserved_iff.2 ⟨rfl, rfl⟩, decode_reserved_iff.2 ⟨rfl, rfl⟩, decode_reserved_iff.2 ⟨rfl, rfl⟩⟩

/-! ### Mnemonics -/

theorem mem_all (i : Instr) : i ∈ Instr.all :=
  List.mem_map.2 ⟨_, row_of_decode (decode_encode i), rfl⟩

/-- The mnemonic column of R56. -/
theorem mnemonics_eq : Instr.all.map Instr.mnemonic =
    ["divd", "divd.", "divdo", "divdo.", "divdu", "divdu.", "divduo", "divduo.",
     "divw", "divw.", "divwo", "divwo.", "divwu", "divwu.", "divwuo", "divwuo.",
     "divde", "divde.", "divdeo", "divdeo.", "divdeu", "divdeu.", "divdeuo", "divdeuo.",
     "divwe", "divwe.", "divweo", "divweo.", "divweu", "divweu.", "divweuo", "divweuo.",
     "modsd", "modud", "modsw", "moduw"] := by decide

theorem mnemonic_injective : Function.Injective Instr.mnemonic := by
  have nodup : (Instr.all.map Instr.mnemonic).Nodup := by
    rw [mnemonics_eq]
    decide
  intro i j h
  exact List.inj_on_of_nodup_map nodup (mem_all i) (mem_all j) h

theorem lookupMnemonic_eq_none_iff (name : String) : lookupMnemonic name = none ↔ name ∉ Instr.all.map Instr.mnemonic := by
  simp [lookupMnemonic]

theorem lookupMnemonic_mnemonic (i : Instr) : lookupMnemonic i.mnemonic = some i := by
  cases hfind : lookupMnemonic i.mnemonic with
  | none => exact absurd (List.mem_map_of_mem (mem_all i)) ((lookupMnemonic_eq_none_iff _).1 hfind)
  | some j =>
    have sameName : j.mnemonic = i.mnemonic := by simpa using List.find?_some hfind
    rw [mnemonic_injective sameName]

/-- Settles O4: a mnemonic finds an instruction of that name, and names are different; `modsd.` is not in the column. -/
theorem mnemonicsNameInstructions : Obligations.MnemonicsNameInstructions := by
  refine ⟨lookupMnemonic_mnemonic, rfl, mem_all, by decide, by decide, by decide, ?modsdRc⟩
  case modsdRc =>
    rw [lookupMnemonic_eq_none_iff, mnemonics_eq]
    decide

end Sys2Proof
end

section
/-!
PROOF. The divider units U1 to U4 (spec/40_divider_primitives.md R70 to R77), at every width. The truncated quotient and the
remainder of R71 are the division of bit vectors, whose exactness the library has; the laws of R77 are laws of truncating
division of integers.
-/

namespace Sys2Proof.Machine

section Divider
variable {W : Nat} {S : Signedness} {n d : BitVec W}

/-! ### The edge conditions -/

theorem readInt_eq_zero_iff : readInt S d = 0 ↔ d = 0 := by
  cases S with
  | signed => rw [readInt_signed, ← BitVec.toInt_zero (w := W), BitVec.toInt_inj]; rfl
  | unsigned => simp [BitVec.toNat_eq]

/-- `MIN_W` is the reading of the one pattern with the sign bit alone (R8). -/
theorem toInt_eq_minInt_iff (hW : 0 < W) : n.toInt = minInt W ↔ n = BitVec.intMin W := by
  rw [minInt, ← BitVec.toInt_intMin_of_pos hW, BitVec.toInt_inj]

theorem toInt_eq_neg_one_iff (hW : 0 < W) : d.toInt = -1 ↔ d = BitVec.allOnes W := by
  rw [← BitVec.toInt_inj, BitVec.toInt_allOnes, if_pos hW]

theorem isEdge_signed_iff : isEdge .signed n d = true ↔ d = 0 ∨ (n.toInt = minInt W ∧ d.toInt = -1) := by
  rw [isEdge_iff, readInt_eq_zero_iff]
  simp

theorem isEdge_unsigned_iff : isEdge .unsigned n d = true ↔ d = 0 := by
  rw [isEdge_iff, readInt_eq_zero_iff]
  simp

/-- The edge conditions of R72 as two patterns. -/
theorem isEdge_signed_iff_patterns (hW : 0 < W) :
    isEdge .signed n d = true ↔ d = 0 ∨ (n = BitVec.intMin W ∧ d = BitVec.allOnes W) := by
  rw [isEdge_signed_iff, toInt_eq_minInt_iff hW, toInt_eq_neg_one_iff hW]

theorem divider_ovn (S : Signedness) (n d : BitVec W) : (divider S n d).ovn = isEdge S n d := by
  obtain ⟨hedge, hu⟩ | ⟨hedge, hu⟩ := divider_cases S n d <;> rw [hu, hedge]

theorem divider_sentinel (h : (divider S n d).ovn = true) : (divider S n d).q = 0 ∧ (divider S n d).r = 0 := by
  obtain ⟨-, hu⟩ | ⟨-, hu⟩ := divider_cases S n d
  · rw [hu]
    exact ⟨rfl, rfl⟩
  · rw [hu] at h
    cases h

/-! ### The quotient and the remainder -/

theorem truncTo_toInt_tdiv (n d : BitVec W) : truncTo W (n.toInt.tdiv d.toInt) = n.sdiv d := by
  apply BitVec.eq_of_toInt_eq
  rw [truncTo, BitVec.toInt_ofInt, BitVec.toInt_sdiv]

theorem truncTo_toInt_tmod (n d : BitVec W) : truncTo W (n.toInt.tmod d.toInt) = n.srem d := by
  rw [truncTo, ← BitVec.toInt_srem, BitVec.ofInt_toInt]

theorem truncTo_toNat_tdiv (n d : BitVec W) : truncTo W ((n.toNat : Int).tdiv d.toNat) = n.udiv d := by
  rw [truncTo, ← Int.ofNat_tdiv, BitVec.ofInt_natCast, ← BitVec.toNat_udiv, BitVec.ofNat_toNat, BitVec.setWidth_eq]
  rfl

theorem truncTo_toNat_tmod (n d : BitVec W) : truncTo W ((n.toNat : Int).tmod d.toNat) = n.umod d := by
  rw [truncTo, ← Int.ofNat_tmod, BitVec.ofInt_natCast, ← BitVec.toNat_umod, BitVec.ofNat_toNat, BitVec.setWidth_eq]
  rfl

/-- Off the edge nothing is lost by the truncation: the one quotient of `W`-bit numbers outside the `W`-bit range is that of
signed `MIN_W` by -1 (R71). -/
theorem readInt_truncTo_tdiv (hW : 0 < W) (h : isEdge S n d = false) :
    readInt S (truncTo W ((readInt S n).tdiv (readInt S d))) = (readInt S n).tdiv (readInt S d) := by
  cases S with
  | signed =>
    have notEdge : n ≠ BitVec.intMin W ∨ d ≠ -1#W := by
      rw [BitVec.neg_one_eq_allOnes, ← not_and_or]
      intro pattern
      rw [(isEdge_signed_iff_patterns hW).2 (.inr pattern)] at h
      cases h
    simp only [readInt_signed, truncTo_toInt_tdiv, BitVec.toInt_sdiv_of_ne_or_ne n d notEdge]
  | unsigned => simp only [readInt_unsigned, truncTo_toNat_tdiv, BitVec.udiv_eq, BitVec.toNat_udiv, Int.ofNat_tdiv]

theorem readInt_truncTo_tmod (S : Signedness) (n d : BitVec W) :
    readInt S (truncTo W ((readInt S n).tmod (readInt S d))) = (readInt S n).tmod (readInt S d) := by
  cases S with
  | signed => simp only [readInt_signed, truncTo_toInt_tmod, BitVec.toInt_srem]
  | unsigned => simp only [readInt_unsigned, truncTo_toNat_tmod, BitVec.umod_eq, BitVec.toNat_umod, Int.ofNat_tmod]

/-- Everything a divider gives off the edge (R71), as bit vectors and as integers. -/
theorem divider_exact (hW : 0 < W) (h : isEdge S n d = false) :
    (divider S n d).q = truncTo W ((readInt S n).tdiv (readInt S d)) ∧
    (divider S n d).r = truncTo W ((readInt S n).tmod (readInt S d)) ∧ (divider S n d).ovn = false ∧
    readInt S (divider S n d).q = (readInt S n).tdiv (readInt S d) ∧
    readInt S (divider S n d).r = (readInt S n).tmod (readInt S d) := by
  obtain ⟨hedge, -⟩ | ⟨-, hu⟩ := divider_cases S n d
  · rw [h] at hedge
    cases hedge
  · rw [hu]
    exact ⟨rfl, rfl, rfl, readInt_truncTo_tdiv hW h, readInt_truncTo_tmod S n d⟩

end Divider

/-- Settles O12: each unit is `divider` at its width, and the hypothesis of each clause is that its edge test fails. -/
theorem dividersExactOffTheEdge : Obligations.DividersExactOffTheEdge :=
  ⟨fun _ _ h => divider_exact (by decide) (Bool.eq_false_iff.2 fun edge => h (isEdge_signed_iff.1 edge)),
    fun _ _ h => divider_exact (by decide) (Bool.eq_false_iff.2 fun edge => h (isEdge_unsigned_iff.1 edge)),
    fun _ _ h => divider_exact (by decide) (Bool.eq_false_iff.2 fun edge => h (isEdge_signed_iff.1 edge)),
    fun _ _ h => divider_exact (by decide) (Bool.eq_false_iff.2 fun edge => h (isEdge_unsigned_iff.1 edge))⟩

/-- Settles O13: `ovn` is the edge test, which holds of a zero divisor and of one pair of patterns. -/
theorem dividersSentinelExactlyOnTheEdge : Obligations.DividersSentinelExactlyOnTheEdge := by
  refine ⟨fun n d => ⟨?_, divider_sentinel⟩, fun n d => ⟨?_, divider_sentinel⟩, fun n d => ⟨?_, divider_sentinel⟩,
    fun n d => ⟨?_, divider_sentinel⟩⟩
  · rw [signedDivider32, divider_ovn]
    exact isEdge_signed_iff_patterns (by decide)
  · rw [unsignedDivider32, divider_ovn]
    exact isEdge_unsigned_iff
  · rw [signedDivider64, divider_ovn]
    exact isEdge_signed_iff_patterns (by decide)
  · rw [unsignedDivider64, divider_ovn]
    exact isEdge_unsigned_iff

/-! ### The laws of division -/

theorem abs_tmod_lt_abs (a : Int) {b : Int} (hb : b ≠ 0) : |a.tmod b| < |b| := by
  rw [Int.abs_eq_natAbs, Int.abs_eq_natAbs, Int.natAbs_tmod, Int.ofNat_lt]
  exact Nat.mod_lt _ (Int.natAbs_pos.2 hb)

theorem abs_tdiv_le_abs (a b : Int) : |a.tdiv b| ≤ |a| := by
  rw [Int.abs_eq_natAbs, Int.abs_eq_natAbs, Int.ofNat_le]
  exact Int.natAbs_tdiv_le_natAbs a b

theorem tmod_nonpos {a : Int} (b : Int) (ha : a ≤ 0) : a.tmod b ≤ 0 := by
  have := Int.tmod_nonneg b (Int.neg_nonneg.2 ha)
  rw [Int.neg_tmod] at this
  exact Int.neg_nonneg.1 this

/-- Operands of one sign have a quotient that is not negative. -/
theorem tdiv_nonneg_of_mul_nonneg {a b : Int} (h : 0 ≤ a * b) : 0 ≤ a.tdiv b := by
  obtain ⟨ha, hb⟩ | ⟨ha, hb⟩ := mul_nonneg_iff.1 h
  · exact Int.tdiv_nonneg ha hb
  · exact Int.tdiv_nonneg_of_nonpos_of_nonpos ha hb

/-- The negated divisor turns opposite signs into one sign. -/
theorem tdiv_nonpos_of_mul_nonpos {a b : Int} (h : a * b ≤ 0) : a.tdiv b ≤ 0 := by
  have := tdiv_nonneg_of_mul_nonneg (a := a) (b := -b) (by rw [Int.mul_neg]; exact Int.neg_nonneg.2 h)
  rw [Int.tdiv_neg] at this
  exact Int.neg_nonneg.1 this

section Laws
variable {W : Nat} {n d : BitVec W}

/-- The laws of R77 on the outputs of a signed divider of any width. -/
theorem signedDivider_laws (hW : 0 < W) (h : (divider .signed n d).ovn = false) :
    let Q := (divider .signed n d).q.toInt
    let R := (divider .signed n d).r.toInt
    n.toInt = Q * d.toInt + R ∧ |R| < |d.toInt| ∧ |Q| ≤ |n.toInt| ∧
    (0 ≤ n.toInt → 0 ≤ R) ∧ (n.toInt ≤ 0 → R ≤ 0) ∧ (0 ≤ n.toInt * d.toInt → 0 ≤ Q) ∧
    (n.toInt * d.toInt ≤ 0 → Q ≤ 0) := by
  rw [divider_ovn] at h
  have hd : d.toInt ≠ 0 := by
    intro zero
    rw [(isEdge_iff .signed n d).2 (.inl zero)] at h
    cases h
  obtain ⟨-, -, -, hq, hr⟩ := divider_exact hW h
  simp only [readInt_signed] at hq hr
  rw [hq, hr]
  exact ⟨(Int.tdiv_mul_add_tmod _ _).symm, abs_tmod_lt_abs _ hd, abs_tdiv_le_abs _ _, Int.tmod_nonneg _, tmod_nonpos _,
    tdiv_nonneg_of_mul_nonneg, tdiv_nonpos_of_mul_nonpos⟩

/-- The laws of R77 on the outputs of an unsigned divider of any width. -/
theorem unsignedDivider_laws (hW : 0 < W) (h : (divider .unsigned n d).ovn = false) :
    n.toNat = (divider .unsigned n d).q.toNat * d.toNat + (divider .unsigned n d).r.toNat ∧
    (divider .unsigned n d).r.toNat < d.toNat ∧ (divider .unsigned n d).q.toNat ≤ n.toNat := by
  rw [divider_ovn] at h
  have hd : d.toNat ≠ 0 := by
    intro zero
    rw [(isEdge_iff .unsigned n d).2 (.inl (congrArg Nat.cast zero))] at h
    cases h
  obtain ⟨-, -, -, hq, hr⟩ := divider_exact hW h
  simp only [readInt_unsigned, ← Int.ofNat_tdiv, ← Int.ofNat_tmod, Int.natCast_inj] at hq hr
  rw [hq, hr]
  exact ⟨(Nat.div_add_mod' _ _).symm, Nat.mod_lt _ (Nat.pos_of_ne_zero hd), Nat.div_le_self _ _⟩

end Laws

/-- Settles O14, at the two widths of the signed units. -/
theorem signedDivisionLaws : Obligations.SignedDivisionLaws :=
  ⟨fun _ _ => signedDivider_laws (by decide), fun _ _ => signedDivider_laws (by decide)⟩

/-- Settles O15, at the two widths of the unsigned units. -/
theorem unsignedDivisionLaws : Obligations.UnsignedDivisionLaws :=
  ⟨fun _ _ => unsignedDivider_laws (by decide), fun _ _ => unsignedDivider_laws (by decide)⟩

end Sys2Proof.Machine
end

section
/-!
PROOF. The bit-level design (Machine/BitLevel.lean) computes the same outputs as the step. Unit by unit: the divider on bit
patterns is `divider`, the double-width divider is U7, the bit tests are those of U5 and U6. Every instruction is one assembly
of these units by the fields of its select word, so the units are compared once and not per instruction.
-/

namespace Sys2Proof.Machine

/-! ### The fixed-width divider -/

section Divider
variable {W : Nat}

theorem bitEdge_eq_isEdge (hW : 0 < W) (S : Signedness) (n d : BitVec W) : bitEdge S n d = isEdge S n d := by
  rw [Bool.eq_iff_iff]
  cases S with
  | signed => rw [isEdge_signed_iff_patterns hW]; simp [bitEdge]
  | unsigned => rw [isEdge_unsigned_iff]; simp [bitEdge]

theorem bitDivider_eq_divider (hW : 0 < W) (S : Signedness) (n d : BitVec W) : bitDivider S n d = divider S n d := by
  unfold bitDivider
  rw [bitEdge_eq_isEdge hW]
  obtain ⟨hedge, hu⟩ | ⟨hedge, hu⟩ := divider_cases S n d
  · rw [hu, if_pos hedge]
    rfl
  · rw [hu, if_neg (Bool.eq_false_iff.1 hedge)]
    cases S with
    | signed => simp only [readInt_signed, truncTo_toInt_tdiv, truncTo_toInt_tmod]
    | unsigned => simp only [readInt_unsigned, truncTo_toNat_tdiv, truncTo_toNat_tmod]

end Divider

/-! ### The double-width divider -/

section Extended
variable {W : Nat}

/-- Truncation in two steps: first to a greater width, then to its lower part. -/
theorem setWidth_truncTo {V : Nat} (hWV : W ≤ V) (x : Int) : (truncTo V x).setWidth W = truncTo W x := by
  have powers : ((2 ^ W : Nat) : Int) ∣ (2 ^ V : Nat) := Int.natCast_dvd_natCast.2 (pow_dvd_pow 2 hWV)
  calc (truncTo V x).setWidth W
      = BitVec.ofInt W (truncTo V x).toNat := by rw [BitVec.ofInt_natCast, BitVec.ofNat_toNat]
    _ = BitVec.ofInt W (x % (2 ^ V : Nat)) := by
        rw [truncTo, BitVec.toNat_ofInt, Int.toNat_of_nonneg (Int.emod_nonneg x (by positivity))]
    _ = truncTo W x := by
        apply BitVec.eq_of_toNat_eq
        rw [truncTo, BitVec.toNat_ofInt, BitVec.toNat_ofInt, Int.emod_emod_of_dvd x powers]

theorem truncTo_readInt (S : Signedness) (v : BitVec W) : truncTo W (readInt S v) = v := by
  cases S with
  | signed => rw [readInt_signed, truncTo, BitVec.ofInt_toInt]
  | unsigned => rw [readInt_unsigned, truncTo, BitVec.ofInt_natCast, BitVec.ofNat_toNat, BitVec.setWidth_eq]

theorem quotientFits_readInt (S : Signedness) (v : BitVec W) : quotientFits W S (readInt S v) = true := by
  cases S with
  | signed => exact (quotientFits_signed W _).2 (toInt_range v)
  | unsigned =>
    have := v.isLt
    rw [quotientFits_unsigned, readInt_unsigned, umaxInt, Int.le_sub_one_iff]
    exact_mod_cast this

/-- The extension of a vector to the double width by its signedness: of the divisor, and of the lower half in the range test
(R110). -/
def widen (S : Signedness) (v : BitVec W) : BitVec (W + W) :=
  match S with
  | .signed => v.signExtend (W + W)
  | .unsigned => v.setWidth (W + W)

@[simp] theorem readInt_widen (S : Signedness) (v : BitVec W) : readInt S (widen S v) = readInt S v := by
  cases S with
  | signed => exact BitVec.toInt_signExtend_of_le (Nat.le_add_left W W)
  | unsigned => exact congrArg Nat.cast (BitVec.toNat_setWidth_of_le (Nat.le_add_left W W))

/-- The dividend in the upper half is `n * 2^W` (R110). -/
@[simp] theorem readInt_append_zero (S : Signedness) (n : BitVec W) : readInt S (n ++ 0#W) = conceptualDividend S n := by
  cases S with
  | signed => rw [readInt_signed, BitVec.toInt_append_zero, mul_comm]; rfl
  | unsigned => simp [conceptualDividend, BitVec.toNat_append, Nat.shiftLeft_eq]

/-- A double-width vector is the extension of its lower half exactly when its reading fits in `W` bits. -/
theorem eq_widen_lower_iff (hW : 0 < W) (S : Signedness) (v : BitVec (W + W)) :
    v = widen S (v.setWidth W) ↔ quotientFits W S (readInt S v) = true := by
  constructor
  · intro same
    rw [same, readInt_widen]
    exact quotientFits_readInt S _
  · intro fits
    have lower : v.setWidth W = truncTo W (readInt S v) := by
      rw [← setWidth_truncTo (Nat.le_add_left W W), truncTo_readInt]
    have reads : readInt S (v.setWidth W) = readInt S v := by
      rw [lower]
      cases S with
      | signed =>
        obtain ⟨hmin, hmax⟩ := (quotientFits_signed W _).1 fits
        exact toInt_truncTo hW hmin hmax
      | unsigned => exact toNat_truncTo (Int.natCast_nonneg _) ((quotientFits_unsigned W _).1 fits)
    calc v = truncTo (W + W) (readInt S v) := (truncTo_readInt S v).symm
      _ = truncTo (W + W) (readInt S (widen S (v.setWidth W))) := by rw [readInt_widen, reads]
      _ = widen S (v.setWidth W) := truncTo_readInt S _

/-- The negated least number wraps to itself. -/
theorem toInt_truncTo_neg_minInt (hW : 0 < W) : (truncTo W (-minInt W)).toInt = minInt W := by
  rw [truncTo, BitVec.ofInt_neg, minInt, ← BitVec.intMin_eq_neg_two_pow, BitVec.neg_intMin, BitVec.toInt_intMin_of_pos hW]

/-- The reading of the one double-width quotient that wraps, and its true value, are both far outside `W` bits. -/
theorem wrapped_quotient_not_fits (hW : 0 < W) :
    quotientFits W .signed (minInt (W + W)) = false ∧ quotientFits W .signed (-minInt (W + W)) = false := by
  have powers : (2 : Int) ^ (W - 1) < 2 ^ (W + W - 1) := pow_lt_pow_right₀ (by decide) (by omega)
  simp only [Bool.eq_false_iff, ne_eq, quotientFits_signed, minInt, maxInt]
  omega

/-- The double-width quotient fits in `W` bits as it is read exactly when the true quotient does (R110, R111). -/
theorem quotientFits_wide (hW : 0 < W) {S : Signedness} {n d : BitVec W} (hd : d ≠ 0) :
    let Q := (conceptualDividend S n).tdiv (readInt S d)
    quotientFits W S (readInt S (truncTo (W + W) Q)) = quotientFits W S Q := by
  intro Q
  have wide : (readInt S (n ++ 0#W)).tdiv (readInt S (widen S d)) = Q := by rw [readInt_append_zero, readInt_widen]
  cases hedge : isEdge S (n ++ 0#W) (widen S d) with
  | false => rw [← wide, readInt_truncTo_tdiv (Nat.add_pos_left hW W) hedge]
  | true =>
    obtain hzero | ⟨rfl, hmin, hneg⟩ := (isEdge_iff S _ _).1 hedge
    · rw [readInt_widen, readInt_eq_zero_iff] at hzero
      exact absurd hzero hd
    · have hQ : Q = -minInt (W + W) := by rw [← wide, hmin, hneg, Int.tdiv_neg, Int.tdiv_one]
      obtain ⟨hread, htrue⟩ := wrapped_quotient_not_fits hW
      rw [hQ, readInt_signed, toInt_truncTo_neg_minInt (Nat.add_pos_left hW W), hread, htrue]

/-- The design keeps its double-width quotient exactly when the true one fits (R111). -/
theorem wide_quotient_kept_iff (hW : 0 < W) {S : Signedness} {n d : BitVec W} (hd : d ≠ 0) :
    let Q := (conceptualDividend S n).tdiv (readInt S d)
    truncTo (W + W) Q = widen S (truncTo W Q) ↔ quotientFits W S Q = true := by
  intro Q
  rw [← quotientFits_wide hW hd, ← eq_widen_lower_iff hW, setWidth_truncTo (Nat.le_add_left W W)]

/-- The double-width design in the terms of R110: widened operands, and a range test by extension. -/
theorem bitExtended_eq (S : Signedness) (n d : BitVec W) :
    bitExtended S n d =
      let Q := (conceptualDividend S n).tdiv (readInt S d)
      if d = 0 then { q := 0, ovn := true }
      else if truncTo (W + W) Q = widen S (truncTo W Q) then { q := truncTo W Q, ovn := false }
      else { q := 0, ovn := true } := by
  rw [← readInt_append_zero, ← readInt_widen S d]
  dsimp only
  rw [← setWidth_truncTo (Nat.le_add_left W W)]
  cases S with
  | signed => simp only [bitExtended, beq_iff_eq, readInt_signed, truncTo_toInt_tdiv]; rfl
  | unsigned => simp only [bitExtended, beq_iff_eq, readInt_unsigned, truncTo_toNat_tdiv]; rfl

theorem bitExtended_eq_extended (hW : 0 < W) (S : Signedness) (n d : BitVec W) :
    bitExtended S n d = extendedDivisionQuotientSentinel S n d := by
  rw [bitExtended_eq]
  dsimp only
  obtain ⟨hzero, hu⟩ | ⟨hzero, hfits, hu⟩ | ⟨hzero, hfits, hu⟩ := extended_cases S n d
  · rw [hu, if_pos (readInt_eq_zero_iff.1 hzero)]
  · have hd : d ≠ 0 := mt readInt_eq_zero_iff.2 hzero
    rw [hu, if_neg hd, if_neg (mt (wide_quotient_kept_iff hW hd).1 (Bool.eq_false_iff.1 hfits))]
  · have hd : d ≠ 0 := mt readInt_eq_zero_iff.2 hzero
    rw [hu, if_neg hd, if_pos ((wide_quotient_kept_iff hW hd).2 hfits)]

end Extended

/-! ### The flags -/

/-- The upper 33 bits of a word are its value above `2^31` (R94). -/
theorem fitsReference_eq_signedTest (q : Word) :
    fitsReference .signed q = (q.extractLsb' 31 33 == 0#33 || q.extractLsb' 31 33 == BitVec.allOnes 33) := by
  have hq := q.isLt
  rw [Bool.eq_iff_iff, fitsReference_signed, Bool.or_eq_true, beq_iff_eq, beq_iff_eq, BitVec.toInt_eq_toNat_cond]
  simp only [BitVec.toNat_eq, BitVec.extractLsb'_toNat, BitVec.toNat_allOnes, BitVec.toNat_ofNat, Nat.shiftRight_eq_div_pow]
  split <;> omega

theorem fitsReference_eq_unsignedTest (q : Word) : fitsReference .unsigned q = (q.extractLsb' 32 32 == 0#32) := by
  have hq := q.isLt
  rw [Bool.eq_iff_iff, fitsReference_unsigned, beq_iff_eq]
  simp only [BitVec.toNat_eq, BitVec.extractLsb'_toNat, BitVec.toNat_ofNat, Nat.shiftRight_eq_div_pow]
  omega

theorem bitOverflow_eq_comparator (ovn : Bool) (q : Word) (L : Width) (S : Signedness) :
    bitOverflow ovn q L S = overflowComparator ovn q L S := by
  cases L with
  | w32 => rfl
  | w64 => cases S with
    | signed => rw [overflowComparator, fitsReference_eq_signedTest]; rfl
    | unsigned => rw [overflowComparator, fitsReference_eq_unsignedTest]; rfl

/-- The sign bit and the zero test are the comparison of U6, where U6 compares the `W`-bit value itself (R100, R101). -/
theorem bitSlot_eq_encoder {W : Nat} {L : Width} {v : BitVec W} (compared : comparedValue (zext64 v) L = v.toInt)
    (soIn : Bool) : bitSlot v soIn = conditionRegisterEncoder (zext64 v) L soIn := by
  have lt : v.msb = decide (v.toInt < 0) := BitVec.msb_eq_toInt
  have eq : (v == 0#W) = decide (v.toInt = 0) := by
    rw [Bool.eq_iff_iff, beq_iff_eq, decide_eq_true_iff]
    exact (readInt_eq_zero_iff (S := .signed)).symm
  have gt : (!v.msb && !(v == 0#W)) = decide (0 < v.toInt) := by
    rw [lt, eq, Bool.eq_iff_iff]
    simp only [Bool.and_eq_true, Bool.not_eq_true', decide_eq_false_iff_not, decide_eq_true_iff]
    omega
  rw [bitSlot, conditionRegisterEncoder, compared, gt, lt, eq]

/-! ### The assembly by select-word fields -/

section Assembly
variable {W : Nat}

/-- What `bitOperation` chooses by kind, from the model's units. -/
def unitOperation (k : Kind) (S : Signedness) (n d : BitVec W) : ExtendedOut W :=
  match k with
  | .plainDivide => { q := (divider S n d).q, ovn := (divider S n d).ovn }
  | .extendedDivide => extendedDivisionQuotientSentinel S n d
  | .modulo => { q := (divider S n d).r, ovn := false }
  | .reserved => { q := 0#W, ovn := false }

/-- The output fields of an operation of width `W` from the model's units. A modulo is a divide that reports and records
nothing. -/
def unitOutputs (f : SelectFields) (n d : BitVec W) : Outputs :=
  let e := unitOperation f.kind f.sign n d
  divideOutputs f.width f.reports f.record
    { val := e.q, ovp := overflowComparator e.ovn (zext64 e.q) f.width f.sign }

/-- The output fields by the fields of the select word: the operands at the width of the operation. -/
def fieldOutputs (f : SelectFields) (p : Ports) : Outputs :=
  match f.width with
  | .w64 => unitOutputs f p.ra p.rb
  | .w32 => unitOutputs f (lowWord p.ra) (lowWord p.rb)

/-- Each of the 36 instructions is the assembly by its own fields (R150, R155). -/
theorem instrOutputs_eq_fieldOutputs (i : Instr) (p : Ports) : instrOutputs i p = fieldOutputs i.fields p := by
  cases i <;> rfl

theorem bitOperation_eq_unitOperation (hW : 0 < W) (k : Kind) (S : Signedness) (n d : BitVec W) :
    bitOperation k S n d = unitOperation k S n d := by
  cases k with
  | plainDivide => rw [bitOperation, unitOperation, bitDivider_eq_divider hW]
  | extendedDivide => exact bitExtended_eq_extended hW S n d
  | modulo => rw [bitOperation, unitOperation, bitDivider_eq_divider hW]
  | reserved => rfl

theorem bitResult_eq_unitOutputs (hW : 0 < W) {f : SelectFields}
    (compared : ∀ v : BitVec W, comparedValue (zext64 v) f.width = v.toInt) (n d : BitVec W) :
    bitResult f n d = unitOutputs f n d := by
  simp only [bitResult, unitOutputs, divideOutputs, bitOperation_eq_unitOperation hW, bitOverflow_eq_comparator,
    bitSlot_eq_encoder (compared _), overflowComparator_overflow, zext64]

end Assembly

theorem bitOutputs_of_wf {p : Ports} (hwf : (selectFields p.op).wf = true) :
    bitOutputs p = fieldOutputs (selectFields p.op) p := by
  unfold bitOutputs fieldOutputs
  rw [if_pos hwf]
  cases hw : (selectFields p.op).width with
  | w64 => exact bitResult_eq_unitOutputs (by decide) (fun v => by rw [hw, comparedValue_w64, zext64_word]) p.ra p.rb
  | w32 =>
    rw [← lowWord_eq_setWidth, ← lowWord_eq_setWidth]
    exact bitResult_eq_unitOutputs (by decide) (fun v => by rw [hw, comparedValue_w32, lowWord_zext64_half]) _ _

theorem bitOutputs_of_not_wf {p : Ports} (hwf : (selectFields p.op).wf = false) : bitOutputs p = lookupFailureOutputs :=
  if_neg (Bool.eq_false_iff.1 hwf)

theorem portOutputs_eq_bitOutputs (p : Ports) : portOutputs p.op p.ra p.rb = bitOutputs p := by
  cases hd : decode p.op with
  | instr i =>
    have hfields := selectFields_of_decode hd
    rw [portOutputs_of_instr hd, instrOutputs_eq_fieldOutputs, bitOutputs_of_wf (by rw [hfields, wf_fields]), hfields]
  | reserved why =>
    obtain ⟨hwf, -⟩ := decode_reserved_iff.1 hd
    rw [portOutputs_of_reserved hd, bitOutputs_of_not_wf hwf]

/-- Settles O50: the step shows `portOutputs`, which the bit-level design computes. -/
theorem bitLevelDesignIsEquivalent : Obligations.BitLevelDesignIsEquivalent := by
  intro s
  rw [step_eq_settle, portOutputs_eq_bitOutputs, settle_eq]

end Sys2Proof.Machine
end

section
/-!
PROOF. The overflow comparator U5 (spec/41_overflow_comparator.md R90 to R96). Its test of the 32-bit range is the fit test of
U7 at width 32 (R111), so a quotient in the range is the extension of its low half. The laws of the pair hold for the
value beside it, whichever unit gave both.
-/

namespace Sys2Proof.Machine

/-! ### The reference range -/

theorem overflow32_w64_false_iff (q : Word) (S : Signedness) :
    (overflowComparator false q .w64 S).overflow32 = false ↔ fitsReference S q = true := by
  rw [overflowComparator_w64, Bool.false_or, Bool.not_eq_false']

theorem fitsReference_eq_quotientFits (S : Signedness) (q : Word) :
    fitsReference S q = quotientFits Config.referenceWidth S (readInt S q) := by
  cases S <;> rfl

/-- A word is in the 32-bit range exactly when it is the extension of its low half (R94). -/
theorem fitsReference_iff_eq_widen (S : Signedness) (q : Word) : fitsReference S q = true ↔ q = widen S (lowWord q) := by
  rw [fitsReference_eq_quotientFits, lowWord_eq_setWidth]
  exact (eq_widen_lower_iff (W := 32) (by decide) S q).symm

theorem fitsReference_eq_false_iff (S : Signedness) (q : Word) : fitsReference S q = false ↔ outsideReference S q := by
  rw [← Bool.not_eq_true]
  cases S with
  | signed =>
    rw [fitsReference_signed, outsideReference]
    omega
  | unsigned =>
    rw [fitsReference_unsigned, outsideReference]
    omega

/-- Settles O16: U5 passes the native bit on. -/
theorem overflowIsTheNativeBit : Obligations.OverflowIsTheNativeBit :=
  ⟨overflowComparator_overflow, overflowComparator_w32⟩

/-- Settles O17: without overflow every clause is the range test of U5, as a range, as an extension and on bits. -/
theorem overflow32TestsTheReferenceRange : Obligations.Overflow32TestsTheReferenceRange := by
  refine ⟨fun q S => rfl, fun q => ?range, fun q => ?extension, fun q => ?bits, fun q => ?urange, fun q => ?ubits,
    fun q => ?uextension⟩ <;> rw [overflow32_w64_false_iff]
  case range => exact fitsReference_signed q
  case extension => exact fitsReference_iff_eq_widen .signed q
  case bits => rw [fitsReference_eq_signedTest, Bool.or_eq_true, beq_iff_eq, beq_iff_eq]
  case urange => exact fitsReference_unsigned q
  case ubits => rw [fitsReference_eq_unsignedTest, beq_iff_eq]
  case uextension => exact fitsReference_iff_eq_widen .unsigned q

/-! ### The pair and the slot beside a value -/

/-- The pair of U5 agrees with the value it judges, if an overflow comes with the sentinel (R92, R93, R95). -/
theorem pairFits_overflowComparator (f : SelectFields) {ovn : Bool} {q : Word} (sentinel : ovn = true → q = 0) :
    PairFits f q (overflowComparator ovn q f.width f.sign) := by
  refine ⟨fun hov => ⟨?both, sentinel hov⟩, fun hw => ?half, fun hw hov => ?word⟩
  case both =>
    rw [overflowComparator_overflow] at hov
    subst hov
    cases f.width <;> rfl
  case half => rw [hw]; rfl
  case word =>
    rw [overflowComparator_overflow] at hov
    subst hov
    rw [hw, overflowComparator_w64, Bool.false_or, Bool.not_eq_true', fitsReference_eq_false_iff]

theorem signedResult_eq_comparedValue (L : Width) (v : Word) : signedResult L v = comparedValue v L := by
  cases L <;> rfl

/-- The slot of U6 agrees with the value it compares, if `so` is the overflow of the pair beside it (R100, R154). -/
theorem slotFits_conditionRegisterEncoder (f : SelectFields) (v : Word) {ov : Option OverflowFlags} {soIn : Bool}
    (so : soIn = true ↔ ∃ g, ov = some g ∧ g.overflow = true) :
    SlotFits f v ov (conditionRegisterEncoder v f.width soIn) := by
  rw [SlotFits, signedResult_eq_comparedValue]
  exact ⟨encoder_lt_iff .., encoder_gt_iff .., encoder_eq_iff .., so⟩

section Divide
variable {W : Nat} {L : Width} {reports record : Bool} {b : BaseResult W}

theorem divideOutputs_ov_eq_some_iff {g : OverflowFlags} :
    (divideOutputs L reports record b).ov = some g ↔ reports = true ∧ b.ovp = g := by
  rw [divideOutputs_ov, Option.ite_none_right_eq_some, Option.some_inj]

theorem divideOutputs_cr0_eq_some_iff {c : ConditionRegister} : (divideOutputs L reports record b).cr0 = some c ↔
    record = true ∧ conditionRegisterEncoder (zext64 b.val) L (reports && b.ovp.overflow) = c := by
  rw [divideOutputs_cr0, Option.ite_none_right_eq_some, Option.some_inj]

/-- A divide's assembly has the shape of its select fields, if its pair fits its value (R151 to R154). -/
theorem outputsShape_divideOutputs (f : SelectFields)
    (pair : PairFits f (zext64 b.val) b.ovp) (upper : f.width = .w32 → (zext64 b.val).toNat < 2 ^ 32) :
    OutputsShape f (divideOutputs f.width f.reports f.record b) := by
  refine ⟨rfl, ?ovPresence, ?slotPresence, rfl, rfl, rfl, rfl, rfl, rfl, rfl, zext64 b.val, rfl, upper, ?pairFits, ?slotFits⟩
  case ovPresence => rw [divideOutputs_ov]; cases f.reports <;> rfl
  case slotPresence => rw [divideOutputs_cr0]; cases f.record <;> rfl
  case pairFits =>
    intro g hg
    obtain ⟨-, rfl⟩ := divideOutputs_ov_eq_some_iff.1 hg
    exact pair
  case slotFits =>
    intro c hc
    obtain ⟨-, rfl⟩ := divideOutputs_cr0_eq_some_iff.1 hc
    apply slotFits_conditionRegisterEncoder
    simp only [divideOutputs_ov_eq_some_iff, and_assoc, exists_and_left, exists_eq_left', Bool.and_eq_true]

end Divide

end Sys2Proof.Machine
end

section
/-!
PROOF. The output fields belong to the ports (spec/46_dispatch.md R150 to R156): every instruction gives the shape of its
select fields, and a zero divisor gives the sentinel with both overflow bits (spec/60_exceptions.md R171). Both are said of the
assembly by fields, once for all 36 instructions.
-/

namespace Sys2Proof.Machine

section Unit
variable {W : Nat} {k : Kind} {S : Signedness} {n : BitVec W}

/-! ### The sentinel -/

theorem extended_sentinel {d : BitVec W} (h : (extendedDivisionQuotientSentinel S n d).ovn = true) :
    (extendedDivisionQuotientSentinel S n d).q = 0 := by
  obtain ⟨-, hu⟩ | ⟨-, -, hu⟩ | ⟨-, -, hu⟩ := extended_cases S n d
  · rw [hu]
  · rw [hu]
  · rw [hu] at h
    cases h

/-- A native overflow comes with the sentinel value (R72, R111). -/
theorem unitOperation_sentinel {d : BitVec W} (h : (unitOperation k S n d).ovn = true) : (unitOperation k S n d).q = 0 := by
  cases k with
  | plainDivide => exact (divider_sentinel h).1
  | extendedDivide => exact extended_sentinel h
  | modulo => cases h
  | reserved => rfl

theorem divider_zero_divisor (S : Signedness) (n : BitVec W) : divider S n 0 = { q := 0, r := 0, ovn := true } :=
  if_pos ((isEdge_iff S n 0).2 (.inl (readInt_eq_zero_iff.2 rfl)))

theorem extended_zero_divisor (S : Signedness) (n : BitVec W) :
    extendedDivisionQuotientSentinel S n 0 = { q := 0, ovn := true } :=
  if_pos (readInt_eq_zero_iff.2 rfl)

/-- A zero divisor gives the value 0, quotient or remainder (R171). -/
theorem unitOperation_zero_divisor_q (k : Kind) (S : Signedness) (n : BitVec W) : (unitOperation k S n 0).q = 0 := by
  cases k with
  | plainDivide | modulo => rw [unitOperation, divider_zero_divisor]
  | extendedDivide => rw [unitOperation, extended_zero_divisor]
  | reserved => rfl

/-- A zero divisor overflows every divide (R72, R111). -/
theorem unitOperation_zero_divisor_ovn (divide : k = .plainDivide ∨ k = .extendedDivide) (S : Signedness) (n : BitVec W) :
    (unitOperation k S n 0).ovn = true := by
  obtain rfl | rfl := divide
  · rw [unitOperation, divider_zero_divisor]
  · rw [unitOperation, extended_zero_divisor]

end Unit

/-! ### The assembly by select-word fields -/

/-- Only the divides have reporting variants (R55). -/
theorem divide_of_wf_of_reports {f : SelectFields} (hwf : f.wf = true) (hreports : f.reports = true) :
    f.kind = .plainDivide ∨ f.kind = .extendedDivide := by
  obtain plain | extended | ⟨-, silent, -⟩ := (wf_iff_kind f).1 hwf
  · exact .inl plain
  · exact .inr extended
  · rw [hreports] at silent
    cases silent

theorem zext64_zero {W : Nat} : zext64 (0 : BitVec W) = 0 :=
  BitVec.setWidth_zero 64 W

/-- A zero divisor's result: the value 0, and both overflow bits where they are reported (R171). -/
def ZeroDivisorResult (o : Outputs) : Prop :=
  o.rt = some 0 ∧ ∀ g, o.ov = some g → g = { overflow := true, overflow32 := true }

theorem divisorIsZero_w64 (p : Ports) : divisorIsZero .w64 p ↔ p.rb = 0 := Iff.rfl

theorem divisorIsZero_w32 (p : Ports) : divisorIsZero .w32 p ↔ lowWord p.rb = 0 := Iff.rfl

section Assembly
variable {W : Nat} {f : SelectFields}

theorem outputsShape_unitOutputs (n d : BitVec W) (upper : f.width = .w32 → ∀ v : BitVec W, (zext64 v).toNat < 2 ^ 32) :
    OutputsShape f (unitOutputs f n d) := by
  refine outputsShape_divideOutputs f (pairFits_overflowComparator f fun hov => ?_) fun hw => upper hw _
  rw [unitOperation_sentinel hov, zext64_zero]

theorem zeroDivisorResult_unitOutputs (hwf : f.wf = true) (n : BitVec W) : ZeroDivisorResult (unitOutputs f n 0) := by
  have value : zext64 (unitOperation f.kind f.sign n 0).q = 0 := by
    rw [unitOperation_zero_divisor_q, zext64_zero]
  refine ⟨congrArg some value, fun g hg => ?_⟩
  obtain ⟨hreports, rfl⟩ := divideOutputs_ov_eq_some_iff.1 hg
  dsimp only
  rw [unitOperation_zero_divisor_ovn (divide_of_wf_of_reports hwf hreports)]
  cases f.width <;> rfl

end Assembly

theorem outputsShape_fieldOutputs (f : SelectFields) (p : Ports) : OutputsShape f (fieldOutputs f p) := by
  unfold fieldOutputs
  cases hw : f.width with
  | w64 => exact outputsShape_unitOutputs _ _ fun h => by rw [hw] at h; cases h
  | w32 =>
    refine outputsShape_unitOutputs _ _ fun _ v => ?_
    rw [toNat_zext64_half]
    exact v.isLt

theorem zeroDivisorResult_fieldOutputs {f : SelectFields} {p : Ports} (hwf : f.wf = true)
    (zero : divisorIsZero f.width p) : ZeroDivisorResult (fieldOutputs f p) := by
  unfold fieldOutputs
  cases hw : f.width with
  | w64 =>
    rw [hw, divisorIsZero_w64] at zero
    dsimp only
    rw [zero]
    exact zeroDivisorResult_unitOutputs hwf p.ra
  | w32 =>
    rw [hw, divisorIsZero_w32] at zero
    dsimp only
    rw [zero]
    exact zeroDivisorResult_unitOutputs hwf (lowWord p.ra)

theorem outputsShape_instrOutputs (i : Instr) (p : Ports) : OutputsShape i.fields (instrOutputs i p) := by
  rw [instrOutputs_eq_fieldOutputs]
  exact outputsShape_fieldOutputs i.fields p

theorem zeroDivisorResult_instrOutputs {i : Instr} {p : Ports} (zero : divisorIsZero i.fields.width p) :
    ZeroDivisorResult (instrOutputs i p) := by
  rw [instrOutputs_eq_fieldOutputs]
  exact zeroDivisorResult_fieldOutputs (wf_fields i) zero

/-! ### The invariant -/

section Consistent
variable {s : State}

theorem consistent_of_reserved {why : Reserved} (hd : decode s.ports.op = .reserved why)
    (hout : s.out = lookupFailureOutputs) : s.Consistent := by
  rw [State.Consistent, hd]
  exact hout

theorem consistent_of_instr {i : Instr} (hd : decode s.ports.op = .instr i) (hout : s.out = instrOutputs i s.ports) :
    s.Consistent := by
  rw [State.Consistent, hd, hout]
  exact ⟨outputsShape_instrOutputs i s.ports, zeroDivisorResult_instrOutputs⟩

/-- A step establishes the invariant from any state, because it replaces every output field (R27). -/
theorem consistent_of_step {t : State} (h : step s = .next t) : t.Consistent := by
  obtain ⟨i, hd, rfl⟩ | ⟨why, hd, rfl⟩ := step_cases h
  · exact consistent_of_instr hd rfl
  · exact consistent_of_reserved hd rfl

end Consistent

/-- Settles O47: a step makes its outputs belong to its ports, whatever stood there before. -/
theorem everyStepKeepsConsistency : Obligations.EveryStepKeepsConsistency :=
  fun _ _ _ h => consistent_of_step h

/-! ### The laws of the pair over the instructions -/

/-- An instruction that reports shows a pair, which agrees with its value (R95, R152). -/
theorem exists_pair_of_reports {i : Instr} (hreports : i.fields.reports = true) (p : Ports) :
    ∃ v g, (instrOutputs i p).rt = some v ∧ (instrOutputs i p).ov = some g ∧ PairFits i.fields v g := by
  obtain ⟨-, presence, -, -, -, -, -, -, -, -, v, hv, -, pair, -⟩ := outputsShape_instrOutputs i p
  rw [hreports] at presence
  obtain ⟨g, hg⟩ := Option.isSome_iff_exists.1 presence
  exact ⟨v, g, hv, hg, pair g hg⟩

theorem deliversPair_of_outputs {i : Instr} {s : State} {v : Word} {g : OverflowFlags}
    (hrt : (instrOutputs i s.ports).rt = some v) (hov : (instrOutputs i s.ports).ov = some g) : DeliversPair i s v g :=
  ⟨s.settle (instrOutputs i s.ports), exec_eq_settle i s, rfl, hrt, hov⟩

/-- The quotient of R96 fits in 64 bits and not in the reference width. -/
theorem divdBase_two_pow_40_by_one :
    divdBase 0x0000010000000000#64 1 = { val := 0x0000010000000000#64, ovp := { overflow := false, overflow32 := true } } := by
  decide

/-- The low half of the dividend of R96 is zero. -/
theorem divwBase_two_pow_40_by_one :
    divwBase 0x0000010000000000#64 1 = { val := 0, ovp := { overflow := false, overflow32 := false } } := by
  decide

/-- Settles O18: the laws are `PairFits` of the pair that is shown; the example of R96 is evaluated. -/
theorem overflowPairLaws : Obligations.OverflowPairLaws := by
  constructor
  · intro i s hreports
    obtain ⟨v, g, -, hg, both, half, -⟩ := exists_pair_of_reports hreports s.ports
    refine ⟨s.settle (instrOutputs i s.ports), g, exec_eq_settle i s, hg, ?never10, half, fun zero => ?zeroDivisor⟩
    case never10 =>
      rintro ⟨hov, hov32⟩
      rw [(both hov).1] at hov32
      cases hov32
    case zeroDivisor => exact (zeroDivisorResult_instrOutputs zero).2 g hg
  · intro s hra hrb
    have divdo : instrOutputs .divdo s.ports = divideOutputs .w64 true false (divdBase s.ports.ra s.ports.rb) := rfl
    have divwo : instrOutputs .divwo s.ports = divideOutputs .w32 true false (divwBase s.ports.ra s.ports.rb) := rfl
    rw [hra, hrb, divdBase_two_pow_40_by_one] at divdo
    rw [hra, hrb, divwBase_two_pow_40_by_one] at divwo
    exact ⟨deliversPair_of_outputs (by rw [divdo]; rfl) (by rw [divdo]; rfl),
      deliversPair_of_outputs (by rw [divwo]; rfl) (by rw [divwo]; rfl)⟩

end Sys2Proof.Machine
end

section
/-!
PROOF. The condition-register encoder U6 (spec/42_condition_register_encoder.md R100 to R103). An integer lies on one side of
zero or is zero, so a slot that compares one sets one of `lt`, `gt`, `eq`; this serves the encoder, and every slot that an
instruction shows, which compares the value on `rt`.
-/

namespace Sys2Proof.Machine

/-! ### The bits of a comparison with zero -/

/-- A slot that compares a number with zero sets exactly one of `lt`, `gt`, `eq` (R103). -/
theorem slot_cases_of_compares {c : ConditionRegister} {x : Int} (lt : c.lt = true ↔ x < 0) (gt : c.gt = true ↔ 0 < x)
    (eq : c.eq = true ↔ x = 0) :
    (c.lt = true ∧ c.gt = false ∧ c.eq = false) ∨ (c.lt = false ∧ c.gt = true ∧ c.eq = false) ∨
      (c.lt = false ∧ c.gt = false ∧ c.eq = true) := by
  simp only [← Bool.not_eq_true, lt, gt, eq]
  omega

/-- Settles O19: the number of the statement is `comparedValue`. -/
theorem conditionSlotComparesWithZero : Obligations.ConditionSlotComparesWithZero := by
  intro v L soIn x c
  have compared : x = comparedValue v L := by cases L <;> rfl
  rw [compared]
  exact ⟨encoder_lt_iff v L soIn, encoder_gt_iff v L soIn, encoder_eq_iff v L soIn, encoder_so v L soIn, rfl⟩

/-- One of three bits, and a free `so` beside it, give six values of the slot (R103). -/
theorem encoder_onehot_and_pack (v : Word) (L : Width) (so : Bool) :
    let c := conditionRegisterEncoder v L so
    c.lt.toNat + c.gt.toNat + c.eq.toNat = 1 ∧ c.pack ∈ [0x8#4, 0x9#4, 0x4#4, 0x5#4, 0x2#4, 0x3#4] := by
  obtain ⟨hlt, hgt, heq⟩ | ⟨hlt, hgt, heq⟩ | ⟨hlt, hgt, heq⟩ :=
    slot_cases_of_compares (encoder_lt_iff v L so) (encoder_gt_iff v L so) (encoder_eq_iff v L so)
  all_goals
    simp only [ConditionRegister.pack, hlt, hgt, heq, encoder_so]
    cases so <;> decide

/-- Another `so_in` gives another `so` and leaves the bits of the comparison (R103). -/
theorem encoder_set_so (v : Word) (L : Width) (so so' : Bool) :
    conditionRegisterEncoder v L so' = { conditionRegisterEncoder v L so with so := so' } := rfl

/-- Settles O20: `so` and the three other bits read different inputs of U6. -/
theorem conditionSlotIsOneOfSix : Obligations.ConditionSlotIsOneOfSix := by
  intro v w L soIn so'
  obtain ⟨onehot, packed⟩ := encoder_onehot_and_pack v L soIn
  refine ⟨onehot, ?copied, ?compared, packed⟩
  case copied => rw [encoder_so, encoder_so]
  case compared =>
    rw [encoder_set_so v L soIn so']
    exact ⟨rfl, rfl, rfl⟩

/-! ### The compared value on `rt` -/

/-- The sign bit of a value at the operation's width (R101). -/
def signBit (L : Width) (v : Word) : Bool :=
  match L with
  | .w64 => v.getLsbD 63
  | .w32 => v.getLsbD 31

theorem signedResult_neg_iff_signBit (L : Width) (v : Word) : signedResult L v < 0 ↔ signBit L v = true := by
  cases L with
  | w64 =>
    have msb : signBit .w64 v = v.msb := (BitVec.msb_eq_getLsbD_last v).symm
    rw [msb, BitVec.msb_eq_toInt, decide_eq_true_iff, signedResult]
  | w32 =>
    have msb : signBit .w32 v = (lowWord v).msb := by
      rw [BitVec.msb_eq_getLsbD_last, lowWord, BitVec.getLsbD_extractLsb']
      rfl
    rw [msb, BitVec.msb_eq_toInt, decide_eq_true_iff, signedResult]

/-- A value whose upper half is clear at 32 bits (R151) is zero as a signed number only if all of it is zero. -/
theorem signedResult_eq_zero_iff {L : Width} {v : Word} (upper : L = .w32 → v.toNat < 2 ^ 32) :
    signedResult L v = 0 ↔ v = 0 := by
  cases L with
  | w64 => exact readInt_eq_zero_iff (S := .signed)
  | w32 =>
    have low : (lowWord v).toNat = v.toNat := by rw [toNat_lowWord, Nat.mod_eq_of_lt (upper rfl)]
    calc (lowWord v).toInt = 0
        ↔ lowWord v = 0 := readInt_eq_zero_iff (S := .signed)
      _ ↔ v = 0 := by rw [BitVec.toNat_eq, BitVec.toNat_eq, low]; rfl

/-! ### The slot of a record form -/

/-- The slot beside a value on `rt`, bit by bit (R100 to R103). -/
theorem slot_bits_of_slotFits {f : SelectFields} {v : Word} {ov : Option OverflowFlags} {c : ConditionRegister}
    (upper : f.width = .w32 → v.toNat < 2 ^ 32) (slot : SlotFits f v ov c) :
    c.lt = signBit f.width v ∧ (c.eq = true ↔ v = 0) ∧ c.gt = (!c.lt && !c.eq) := by
  obtain ⟨lt, gt, eq, -⟩ := slot
  refine ⟨?sign, eq.trans (signedResult_eq_zero_iff upper), ?rest⟩
  case sign => rw [Bool.eq_iff_iff, lt, signedResult_neg_iff_signBit]
  case rest =>
    obtain ⟨hlt, hgt, heq⟩ | ⟨hlt, hgt, heq⟩ | ⟨hlt, hgt, heq⟩ := slot_cases_of_compares lt gt eq
    all_goals rw [hlt, hgt, heq]; rfl

/-- A record form shows a slot, which compares the value on `rt` as a signed number whatever the sign field (R102, R153). -/
theorem exists_slot_of_record {i : Instr} (hrecord : i.fields.record = true) (p : Ports) :
    ∃ v c, (instrOutputs i p).rt = some v ∧ (instrOutputs i p).cr0 = some c ∧
      c.lt = signBit i.fields.width v ∧ (c.eq = true ↔ v = 0) ∧ c.gt = (!c.lt && !c.eq) := by
  obtain ⟨-, -, presence, -, -, -, -, -, -, -, v, hv, upper, -, slot⟩ := outputsShape_instrOutputs i p
  rw [hrecord] at presence
  obtain ⟨c, hc⟩ := Option.isSome_iff_exists.1 presence
  exact ⟨v, c, hv, hc, slot_bits_of_slotFits upper (slot c hc)⟩

/-- The quotient of R102: the greatest power of two of a word, by one. -/
theorem divduBase_two_pow_63_by_one : (divduBase 0x8000000000000000#64 1).val = 0x8000000000000000#64 := by decide

theorem divduRc_rt (p : Ports) : (instrOutputs .divduRc p).rt = some (divduBase p.ra p.rb).val :=
  congrArg some (zext64_word _)

/-- Settles O21: the slot of every record form compares signed; the quotient of R102 has its sign bit set. -/
theorem recordFormsCompareSigned : Obligations.RecordFormsCompareSigned := by
  constructor
  · intro i s hrecord
    obtain ⟨v, c, hv, hc, bits⟩ := exists_slot_of_record hrecord s.ports
    exact ⟨s.settle (instrOutputs i s.ports), v, c, exec_eq_settle i s, rfl, hv, hc, bits⟩
  · intro s hra hrb
    obtain ⟨v, c, hv, hc, lt, -⟩ := exists_slot_of_record (i := .divduRc) rfl s.ports
    have value : v = 0x8000000000000000#64 := by
      rw [divduRc_rt, hra, hrb, divduBase_two_pow_63_by_one] at hv
      exact (Option.some_inj.1 hv).symm
    subst value
    exact ⟨s.settle (instrOutputs .divduRc s.ports), c, exec_eq_settle _ s, hv, hc, lt⟩

end Sys2Proof.Machine
end

section
/-!
PROOF. The extended division unit U7 (spec/43_extended_divide.md R110 to R113), at every width. U7 gives the true quotient when
it fits and the sentinel otherwise. The closed forms of the fit test compare the magnitude of the true quotient, which is the
quotient of the magnitudes, with a bound that the signs of the operands choose.
-/

namespace Sys2Proof.Machine

/-- Settles O22: the appended and the extended vectors are those of the double-width divider. -/
theorem conceptualDividendReadings : Obligations.ConceptualDividendReadings := by
  intro W n d
  have appended : ((n ++ 0#W).toNat : Int) = n.toNat * 2 ^ W := readInt_append_zero .unsigned n
  have widened : ((d.setWidth (W + W)).toNat : Int) = d.toNat := readInt_widen .unsigned d
  refine ⟨rfl, rfl, readInt_append_zero .signed n, ?_, readInt_widen .signed d, Int.natCast_inj.1 widened⟩
  exact_mod_cast appended

/-- Truncating division divides the magnitudes. -/
theorem abs_tdiv (a b : Int) : |a.tdiv b| = |a| / |b| := by
  have magnitudes : (a.tdiv b).natAbs = a.natAbs / b.natAbs := Int.natAbs_tdiv a b
  rw [Int.abs_eq_natAbs, magnitudes, Int.natCast_ediv, Int.abs_eq_natAbs, Int.abs_eq_natAbs]

section Unit
variable {W : Nat} {S : Signedness} {n d : BitVec W}

/-- No divisor of width 0 is other than zero, so the laws of a nonzero divisor need no bound on the width. -/
theorem width_pos_of_ne_zero (hd : d ≠ 0) : 0 < W := by
  cases W with
  | zero => exact absurd BitVec.of_length_zero hd
  | succ k => exact Nat.succ_pos k

theorem abs_toInt_pos (hd : d ≠ 0) : 0 < |d.toInt| :=
  abs_pos.2 (mt (readInt_eq_zero_iff (S := .signed)).1 hd)

theorem two_pow_eq_two_mul_half (hW : 0 < W) : (2 : Int) ^ W = 2 * 2 ^ (W - 1) := by
  rw [← pow_succ', Nat.sub_add_cancel hW]

/-! ### The true quotient -/

/-- The true quotient `Q` of R111, before the fit test. -/
def extendedQuotient (S : Signedness) (n d : BitVec W) : Int :=
  (conceptualDividend S n).tdiv (readInt S d)

theorem extendedQuotient_unsigned (n d : BitVec W) :
    extendedQuotient .unsigned n d = (n.toNat * 2 ^ W / d.toNat : Nat) := by
  rw [extendedQuotient, conceptualDividend, readInt_unsigned, readInt_unsigned, Int.ofNat_tdiv]
  push_cast
  rfl

theorem extendedQuotient_fits_unsigned_iff :
    quotientFits W .unsigned (extendedQuotient .unsigned n d) = true ↔ n.toNat * 2 ^ W / d.toNat ≤ 2 ^ W - 1 := by
  have one_le : 1 ≤ 2 ^ W := Nat.one_le_two_pow
  rw [quotientFits_unsigned, extendedQuotient_unsigned, umaxInt, ← Int.ofNat_le]
  push_cast [one_le]
  rfl

theorem extendedQuotient_nonneg (same : 0 ≤ n.toInt * d.toInt) : 0 ≤ extendedQuotient .signed n d := by
  apply tdiv_nonneg_of_mul_nonneg
  rw [conceptualDividend, readInt_signed, readInt_signed, mul_right_comm]
  positivity

theorem extendedQuotient_nonpos (opposite : n.toInt * d.toInt ≤ 0) : extendedQuotient .signed n d ≤ 0 := by
  apply tdiv_nonpos_of_mul_nonpos
  rw [conceptualDividend, readInt_signed, readInt_signed, mul_right_comm]
  exact mul_nonpos_of_nonpos_of_nonneg opposite (by positivity)

theorem abs_extendedQuotient_lt_iff (hd : d ≠ 0) (k : Int) :
    |extendedQuotient .signed n d| < k ↔ |n.toInt| * 2 ^ W < k * |d.toInt| := by
  have power : |(2 : Int) ^ W| = 2 ^ W := abs_of_pos (by positivity)
  rw [extendedQuotient, conceptualDividend, readInt_signed, readInt_signed, abs_tdiv, abs_mul, power,
    Int.ediv_lt_iff_lt_mul (abs_toInt_pos hd)]

theorem abs_extendedQuotient_lt_half_iff (hd : d ≠ 0) :
    |extendedQuotient .signed n d| < 2 ^ (W - 1) ↔ 2 * |n.toInt| < |d.toInt| := by
  have hpow : (0 : Int) < 2 ^ (W - 1) := by positivity
  calc |extendedQuotient .signed n d| < 2 ^ (W - 1)
      ↔ |n.toInt| * 2 ^ W < 2 ^ (W - 1) * |d.toInt| := abs_extendedQuotient_lt_iff hd _
    _ ↔ 2 ^ (W - 1) * (2 * |n.toInt|) < 2 ^ (W - 1) * |d.toInt| := by
        rw [two_pow_eq_two_mul_half (width_pos_of_ne_zero hd), mul_comm, mul_right_comm, mul_comm _ (2 ^ _)]
    _ ↔ 2 * |n.toInt| < |d.toInt| := Int.mul_lt_mul_left hpow

/-! ### Exact or sentinel -/

theorem readInt_truncTo_of_fits (hW : 0 < W) {x : Int} (nonneg : S = .unsigned → 0 ≤ x)
    (fits : quotientFits W S x = true) : readInt S (truncTo W x) = x := by
  cases S with
  | signed =>
    obtain ⟨hmin, hmax⟩ := (quotientFits_signed W x).1 fits
    exact toInt_truncTo hW hmin hmax
  | unsigned => exact toNat_truncTo (nonneg rfl) ((quotientFits_unsigned W x).1 fits)

/-- A true quotient that fits is read back from the truncated one, and does not overflow (R111). -/
theorem extended_exact (hd : d ≠ 0) (fits : quotientFits W S (extendedQuotient S n d) = true) :
    readInt S (extendedDivisionQuotientSentinel S n d).q = extendedQuotient S n d ∧
      (extendedDivisionQuotientSentinel S n d).ovn = false := by
  obtain ⟨hzero, -⟩ | ⟨-, hlost, -⟩ | ⟨-, -, hu⟩ := extended_cases S n d
  · exact absurd (readInt_eq_zero_iff.1 hzero) hd
  · rw [extendedQuotient, hlost] at fits
    cases fits
  · have nonneg : S = .unsigned → 0 ≤ extendedQuotient S n d := by
      rintro rfl
      rw [extendedQuotient_unsigned]
      exact Int.natCast_nonneg _
    rw [hu]
    exact ⟨readInt_truncTo_of_fits (width_pos_of_ne_zero hd) nonneg fits, rfl⟩

/-- Every other pair of operands gives the sentinel with overflow (R111). -/
theorem extended_lost (lost : ¬ (d ≠ 0 ∧ quotientFits W S (extendedQuotient S n d) = true)) :
    extendedDivisionQuotientSentinel S n d = { q := 0, ovn := true } := by
  obtain ⟨-, hu⟩ | ⟨-, -, hu⟩ | ⟨hzero, fits, -⟩ := extended_cases S n d
  · exact hu
  · exact hu
  · exact absurd ⟨mt readInt_eq_zero_iff.2 hzero, fits⟩ lost

theorem extended_ovn_eq_false_iff : (extendedDivisionQuotientSentinel S n d).ovn = false ↔
    d ≠ 0 ∧ quotientFits W S (extendedQuotient S n d) = true := by
  constructor
  · intro kept
    by_contra lost
    rw [extended_lost lost] at kept
    cases kept
  · rintro ⟨hd, fits⟩
    exact (extended_exact hd fits).2

theorem extended_eq_sentinel_of_ovn (h : (extendedDivisionQuotientSentinel S n d).ovn = true) :
    extendedDivisionQuotientSentinel S n d = { q := 0, ovn := true } := by
  apply extended_lost
  rw [← extended_ovn_eq_false_iff, h]
  decide

/-! ### The fit test in closed form -/

/-- The signed fit test as a range (R111). -/
theorem extended_ovn_signed_iff : (extendedDivisionQuotientSentinel .signed n d).ovn = true ↔
    d = 0 ∨ extendedQuotient .signed n d < -2 ^ (W - 1) ∨ 2 ^ (W - 1) - 1 < extendedQuotient .signed n d := by
  rw [← Bool.not_eq_false, extended_ovn_eq_false_iff, quotientFits_signed, not_and_or, not_and_or, not_not, not_le, not_le]
  rfl

/-- The unsigned fit test compares the operands (R112). -/
theorem extended_ovn_unsigned_iff :
    (extendedDivisionQuotientSentinel .unsigned n d).ovn = true ↔ d = 0 ∨ d.toNat ≤ n.toNat := by
  rw [← Bool.not_eq_false, extended_ovn_eq_false_iff, extendedQuotient_fits_unsigned_iff, not_and_or, not_not]
  refine or_congr_right' fun hd => ?_
  have hpos : 0 < d.toNat := Nat.pos_of_ne_zero (BitVec.toNat_ne_iff_ne.2 hd)
  have hpow : 0 < 2 ^ W := Nat.two_pow_pos W
  calc ¬ n.toNat * 2 ^ W / d.toNat ≤ 2 ^ W - 1
      ↔ 2 ^ W ≤ n.toNat * 2 ^ W / d.toNat := by omega
    _ ↔ 2 ^ W * d.toNat ≤ n.toNat * 2 ^ W := Nat.le_div_iff_mul_le hpos
    _ ↔ d.toNat ≤ n.toNat := by rw [mul_comm, Nat.mul_le_mul_right_iff hpow]

/-- A quotient that is not negative is bounded by `MAX_W` (R112). -/
theorem extended_fits_iff_of_same_sign (hd : d ≠ 0) (same : 0 ≤ n.toInt * d.toInt) :
    (extendedDivisionQuotientSentinel .signed n d).ovn = false ↔ 2 * |n.toInt| < |d.toInt| := by
  have hpow : (0 : Int) < 2 ^ (W - 1) := by positivity
  have nonneg := extendedQuotient_nonneg same
  rw [← abs_extendedQuotient_lt_half_iff hd, abs_of_nonneg nonneg, ← Bool.not_eq_true, extended_ovn_signed_iff,
    or_iff_right hd]
  omega

/-- A quotient that is not positive is bounded by `MIN_W`, whose magnitude is one greater (R112). -/
theorem extended_fits_iff_of_opposite_sign (hd : d ≠ 0) (opposite : n.toInt * d.toInt ≤ 0) :
    (extendedDivisionQuotientSentinel .signed n d).ovn = false ↔
      |n.toInt| * 2 ^ W < (2 ^ (W - 1) + 1) * |d.toInt| := by
  have hpow : (0 : Int) < 2 ^ (W - 1) := by positivity
  have nonpos := extendedQuotient_nonpos opposite
  rw [← abs_extendedQuotient_lt_iff hd, abs_of_nonpos nonpos, ← Bool.not_eq_true, extended_ovn_signed_iff,
    or_iff_right hd]
  omega

/-- A dividend not below the divisor has a quotient of magnitude `2^W` or more (R113). -/
theorem extended_overflows_of_abs_le (hd : d ≠ 0) (large : |d.toInt| ≤ |n.toInt|) :
    (extendedDivisionQuotientSentinel .signed n d).ovn = true := by
  have hpow : (0 : Int) < 2 ^ (W - 1) := by positivity
  have double := two_pow_eq_two_mul_half (width_pos_of_ne_zero hd)
  have beyond : 2 ^ W ≤ |extendedQuotient .signed n d| := by
    rw [← not_lt, abs_extendedQuotient_lt_iff hd, not_lt, mul_comm]
    exact mul_le_mul_of_nonneg_right large (by positivity)
  rw [extended_ovn_signed_iff, or_iff_right hd]
  obtain above | below := le_abs.1 beyond <;> omega

end Unit

/-- Settles O23: the two clauses are `extended_exact` and `extended_lost`, with the fit test written out as a range. -/
theorem extendedQuotientExactOrSentinel : Obligations.ExtendedQuotientExactOrSentinel := by
  constructor
  · intro W n d _ Q e
    have range : quotientFits W .signed Q = true ↔ -2 ^ (W - 1) ≤ Q ∧ Q ≤ 2 ^ (W - 1) - 1 := quotientFits_signed W Q
    rw [← range]
    refine ⟨fun ⟨hd, fits⟩ => extended_exact hd fits, fun lost => ?_⟩
    have sentinel : e = { q := 0, ovn := true } := extended_lost lost
    exact ⟨congrArg ExtendedOut.q sentinel, congrArg ExtendedOut.ovn sentinel⟩
  · intro W n d Q e
    have range := extendedQuotient_fits_unsigned_iff (n := n) (d := d)
    refine ⟨fun ⟨hd, fits⟩ => ?_, fun lost => ?_⟩
    · obtain ⟨value, kept⟩ := extended_exact hd (range.2 fits)
      rw [extendedQuotient_unsigned] at value
      exact ⟨Int.natCast_inj.1 value, kept⟩
    · have sentinel : e = { q := 0, ovn := true } := extended_lost (by rwa [range])
      exact ⟨congrArg ExtendedOut.q sentinel, congrArg ExtendedOut.ovn sentinel⟩

/-- Settles O24: a zero dividend counts as one of the same sign; half the divisor stays below the bound of opposite signs. -/
theorem extendedFitClosedForms : Obligations.ExtendedFitClosedForms := by
  refine ⟨fun W n d => extended_ovn_unsigned_iff, fun W n d hW hd => ⟨?zero, ?same, ?opposite, ?half⟩⟩
  case zero =>
    rintro rfl
    rw [extended_fits_iff_of_same_sign hd (by simp)]
    simpa using abs_toInt_pos hd
  case same => exact fun same => extended_fits_iff_of_same_sign hd same.le
  case opposite => exact fun opposite => extended_fits_iff_of_opposite_sign hd opposite.le
  case half =>
    intro opposite half
    rw [extended_fits_iff_of_opposite_sign hd opposite.le]
    calc |n.toInt| * 2 ^ W = 2 ^ (W - 1) * (2 * |n.toInt|) := by rw [two_pow_eq_two_mul_half hW]; ring
      _ ≤ 2 ^ (W - 1) * |d.toInt| := mul_le_mul_of_nonneg_left half (by positivity)
      _ < (2 ^ (W - 1) + 1) * |d.toInt| := by rw [add_one_mul]; exact lt_add_of_pos_right _ (abs_toInt_pos hd)

/-- Settles O25: the two laws on magnitudes, and the two counterexamples of R113 evaluated. -/
theorem largeDividendForcesOverflow : Obligations.LargeDividendForcesOverflow := by
  refine ⟨fun W n d _ large => ?signed, fun W n d large => ?unsigned, by decide, by decide⟩
  case signed =>
    obtain rfl | hd := eq_or_ne d 0
    · exact extended_zero_divisor .signed n
    · exact extended_eq_sentinel_of_ovn (extended_overflows_of_abs_le hd (large.resolve_left hd))
  case unsigned => exact extended_eq_sentinel_of_ovn (extended_ovn_unsigned_iff.2 large)

end Sys2Proof.Machine
end

section
/-!
PROOF. The extended-divide instructions (spec/43_extended_divide.md R114 to R117). Each base operation is U7 and U5 at one width
and signedness, shown by four variants; so what the four deliver is said once, for every width and signedness, and each
instruction adds its test for a lost quotient and its reading of `overflow32`.
-/

namespace Sys2Proof.Machine

/-! ### The pair of U5 with and without a native overflow -/

theorem overflowComparator_true (q : Word) (L : Width) (S : Signedness) :
    overflowComparator true q L S = { overflow := true, overflow32 := true } := by
  cases L <;> rfl

theorem overflowComparator_false_signed (q : Word) : overflowComparator false q .w64 .signed =
    { overflow := false, overflow32 := decide (q.toInt < -2 ^ 31 ∨ 2 ^ 31 - 1 < q.toInt) } := by
  have outside : (!fitsReference .signed q) = decide (q.toInt < -2 ^ 31 ∨ 2 ^ 31 - 1 < q.toInt) := by
    rw [Bool.eq_iff_iff, Bool.not_eq_true', decide_eq_true_iff, fitsReference_eq_false_iff, outsideReference]
  rw [← outside]
  rfl

theorem overflowComparator_false_unsigned (q : Word) : overflowComparator false q .w64 .unsigned =
    { overflow := false, overflow32 := decide (2 ^ 32 - 1 < q.toNat) } := by
  have outside : (!fitsReference .unsigned q) = decide (2 ^ 32 - 1 < q.toNat) := by
    rw [Bool.eq_iff_iff, Bool.not_eq_true', decide_eq_true_iff, fitsReference_eq_false_iff, outsideReference]
  rw [← outside]
  rfl

/-! ### The four variants of a divide -/

section Variants
variable {plain dotted reporting both : Instr} {s : State} {L : Width} {W : Nat}

/-- The four variants show one base result, each with the fields of its `OE` and `Rc` (R55, R155). -/
def VariantsShow (plain dotted reporting both : Instr) (p : Ports) (L : Width) (b : BaseResult W) : Prop :=
  instrOutputs plain p = divideOutputs L false false b ∧ instrOutputs dotted p = divideOutputs L false true b ∧
    instrOutputs reporting p = divideOutputs L true false b ∧ instrOutputs both p = divideOutputs L true true b

theorem delivers_of_outputs {i : Instr} {v : Word} (hrt : (instrOutputs i s.ports).rt = some v) : Delivers i s v :=
  ⟨s.settle (instrOutputs i s.ports), exec_eq_settle i s, rfl, hrt⟩

theorem fourDeliver_of_variantsShow {b : BaseResult W} (h : VariantsShow plain dotted reporting both s.ports L b) :
    FourDeliver plain dotted reporting both s (zext64 b.val) b.ovp := by
  obtain ⟨hplain, hdotted, hreporting, hboth⟩ := h
  exact ⟨delivers_of_outputs (congrArg Outputs.rt hplain), delivers_of_outputs (congrArg Outputs.rt hdotted),
    deliversPair_of_outputs (congrArg Outputs.rt hreporting) (congrArg Outputs.ov hreporting),
    deliversPair_of_outputs (congrArg Outputs.rt hboth) (congrArg Outputs.ov hboth)⟩

/-! ### The extended divides -/

/-- The base result of an extended divide of width `W`: the quotient of U7 and the pair of U5 (R114 to R117). -/
def extendedBase (L : Width) (S : Signedness) (n d : BitVec W) : BaseResult W :=
  let u := extendedDivisionQuotientSentinel S n d
  { val := u.q, ovp := overflowComparator u.ovn (zext64 u.q) L S }

/-- What the four variants of an extended divide deliver, where `lost` says that U7 overflows. -/
theorem extended_delivers {S : Signedness} {n d : BitVec W} {lost : Prop}
    (variants : VariantsShow plain dotted reporting both s.ports L (extendedBase L S n d))
    (lost_iff : (extendedDivisionQuotientSentinel S n d).ovn = true ↔ lost) :
    (lost → FourDeliver plain dotted reporting both s 0 { overflow := true, overflow32 := true }) ∧
    (¬ lost → ∃ v : BitVec W, readInt S v = extendedQuotient S n d ∧
      FourDeliver plain dotted reporting both s (zext64 v) (overflowComparator false (zext64 v) L S)) := by
  have delivers := fourDeliver_of_variantsShow variants
  constructor
  · intro h
    rwa [extendedBase, extended_eq_sentinel_of_ovn (lost_iff.2 h), zext64_zero, overflowComparator_true] at delivers
  · intro h
    have kept : (extendedDivisionQuotientSentinel S n d).ovn = false := Bool.eq_false_iff.2 (mt lost_iff.1 h)
    obtain ⟨hd, fits⟩ := extended_ovn_eq_false_iff.1 kept
    rw [extendedBase, kept] at delivers
    exact ⟨_, (extended_exact hd fits).1, delivers⟩

end Variants

theorem divde_variantsShow (p : Ports) :
    VariantsShow .divde .divdeRc .divdeo .divdeoRc p .w64 (extendedBase .w64 .signed p.ra p.rb) :=
  ⟨rfl, rfl, rfl, rfl⟩

theorem divdeu_variantsShow (p : Ports) :
    VariantsShow .divdeu .divdeuRc .divdeuo .divdeuoRc p .w64 (extendedBase .w64 .unsigned p.ra p.rb) :=
  ⟨rfl, rfl, rfl, rfl⟩

theorem divwe_variantsShow (p : Ports) :
    VariantsShow .divwe .divweRc .divweo .divweoRc p .w32 (extendedBase .w32 .signed (lowWord p.ra) (lowWord p.rb)) :=
  ⟨rfl, rfl, rfl, rfl⟩

theorem divweu_variantsShow (p : Ports) : VariantsShow .divweu .divweuRc .divweuo .divweuoRc p .w32
    (extendedBase .w32 .unsigned (lowWord p.ra) (lowWord p.rb)) :=
  ⟨rfl, rfl, rfl, rfl⟩

/-- Settles O30: a quotient that is kept is judged by the signed 32-bit range. -/
theorem divdeDeliversExtendedQuotient : Obligations.DivdeDeliversExtendedQuotient := by
  refine ⟨⟨rfl, rfl, rfl, rfl⟩, fun s => ?_⟩
  refine (extended_delivers (divde_variantsShow s.ports) extended_ovn_signed_iff).imp_right fun deliver kept => ?_
  obtain ⟨v, value, delivers⟩ := deliver kept
  rw [zext64_word, overflowComparator_false_signed, ← readInt_signed, value] at delivers
  exact ⟨v, value, delivers⟩

/-- Settles O31: a quotient that is kept is judged by the unsigned 32-bit range. -/
theorem divdeuDeliversExtendedQuotient : Obligations.DivdeuDeliversExtendedQuotient := by
  refine ⟨⟨rfl, rfl, rfl, rfl⟩, fun s => ?_⟩
  refine (extended_delivers (divdeu_variantsShow s.ports) extended_ovn_unsigned_iff).imp_right fun deliver kept => ?_
  obtain ⟨v, value, delivers⟩ := deliver kept
  rw [extendedQuotient_unsigned, readInt_unsigned, Int.natCast_inj] at value
  rw [zext64_word, overflowComparator_false_unsigned, value] at delivers
  exact ⟨v, value, delivers⟩

/-- Settles O32: at 32 bits U5 repeats the native bit, so the pair of a kept quotient is (0, 0). -/
theorem divweDeliversExtendedQuotient : Obligations.DivweDeliversExtendedQuotient :=
  ⟨⟨rfl, rfl, rfl, rfl⟩, fun s => extended_delivers (divwe_variantsShow s.ports) extended_ovn_signed_iff⟩

/-- Settles O33, as O32 with the unsigned quotient as a natural number. -/
theorem divweuDeliversExtendedQuotient : Obligations.DivweuDeliversExtendedQuotient := by
  refine ⟨⟨rfl, rfl, rfl, rfl⟩, fun s => ?_⟩
  refine (extended_delivers (divweu_variantsShow s.ports) extended_ovn_unsigned_iff).imp_right fun deliver kept => ?_
  obtain ⟨v, value, delivers⟩ := deliver kept
  rw [extendedQuotient_unsigned, readInt_unsigned, Int.natCast_inj] at value
  exact ⟨v, value, delivers⟩

end Sys2Proof.Machine
end

section
/-!
PROOF. The plain divide instructions (spec/44_plain_divide.md R130 to R133). Each base operation is a divider unit and U5 at one
width and signedness, shown by four variants; so what the four deliver is said once, for every width and signedness, and each
instruction adds the patterns of its edge and its reading of `overflow32` or of `lt`.
-/

namespace Sys2Proof.Machine

section Variants
variable {plain dotted reporting both : Instr} {s : State} {L : Width} {W : Nat}

/-! ### The slot of the record forms -/

/-- The two record forms compare the value on `rt`, whatever `so` they copy (R100, R154). -/
theorem recordsBelowZero_of_variantsShow {b : BaseResult W} (h : VariantsShow plain dotted reporting both s.ports L b)
    (negative : comparedValue (zext64 b.val) L < 0) : RecordsBelowZero dotted both s := by
  obtain ⟨-, hdotted, -, hboth⟩ := h
  have below {i : Instr} {reports : Bool} (hi : instrOutputs i s.ports = divideOutputs L reports true b) :
      ∃ t c, exec i s = .next t ∧ t.ports = s.ports ∧ t.out.cr0 = some c ∧ c.lt = true :=
    ⟨s.settle (instrOutputs i s.ports), _, exec_eq_settle i s, rfl, congrArg Outputs.cr0 hi, (encoder_lt_iff ..).2 negative⟩
  exact List.forall_mem_cons.2 ⟨below hdotted, List.forall_mem_singleton.2 (below hboth)⟩

/-! ### The plain divides -/

/-- The base result of a plain divide of width `W`: the quotient of a divider unit and the pair of U5 (R130 to R133). -/
def plainBase (L : Width) (S : Signedness) (n d : BitVec W) : BaseResult W :=
  let u := divider S n d
  { val := u.q, ovp := overflowComparator u.ovn (zext64 u.q) L S }

theorem plainBase_val (L : Width) (S : Signedness) (n d : BitVec W) : (plainBase L S n d).val = (divider S n d).q := rfl

theorem plainBase_ovp (L : Width) (S : Signedness) (n d : BitVec W) :
    (plainBase L S n d).ovp = overflowComparator (divider S n d).ovn (zext64 (divider S n d).q) L S := rfl

/-- What the four variants of a plain divide deliver, where `edge` names the edge condition of its unit; off the edge the
record forms show `lt` for a value that is negative at the instruction's width. -/
theorem plain_delivers {S : Signedness} {n d : BitVec W} {edge : Prop} (hW : 0 < W)
    (variants : VariantsShow plain dotted reporting both s.ports L (plainBase L S n d))
    (edge_iff : isEdge S n d = true ↔ edge) :
    (edge → FourDeliver plain dotted reporting both s 0 { overflow := true, overflow32 := true }) ∧
    (¬ edge → ∃ v : BitVec W, readInt S v = (readInt S n).tdiv (readInt S d) ∧
      FourDeliver plain dotted reporting both s (zext64 v) (overflowComparator false (zext64 v) L S) ∧
      (comparedValue (zext64 v) L < 0 → RecordsBelowZero dotted both s)) := by
  have delivers := fourDeliver_of_variantsShow variants
  rw [plainBase_val, plainBase_ovp, divider_ovn] at delivers
  constructor
  · intro h
    have sentinel : (divider S n d).q = 0 := (divider_sentinel (by rw [divider_ovn, edge_iff.2 h])).1
    rwa [sentinel, edge_iff.2 h, zext64_zero, overflowComparator_true] at delivers
  · intro h
    have offEdge : isEdge S n d = false := Bool.eq_false_iff.2 (mt edge_iff.1 h)
    obtain ⟨-, -, -, value, -⟩ := divider_exact hW offEdge
    rw [offEdge] at delivers
    exact ⟨(divider S n d).q, value, delivers, fun negative => recordsBelowZero_of_variantsShow variants negative⟩

end Variants

theorem divd_variantsShow (p : Ports) : VariantsShow .divd .divdRc .divdo .divdoRc p .w64 (plainBase .w64 .signed p.ra p.rb) := by
  rw [plainBase, zext64_word]
  exact ⟨rfl, rfl, rfl, rfl⟩

theorem divdu_variantsShow (p : Ports) :
    VariantsShow .divdu .divduRc .divduo .divduoRc p .w64 (plainBase .w64 .unsigned p.ra p.rb) := by
  rw [plainBase, zext64_word]
  exact ⟨rfl, rfl, rfl, rfl⟩

theorem divw_variantsShow (p : Ports) :
    VariantsShow .divw .divwRc .divwo .divwoRc p .w32 (plainBase .w32 .signed (lowWord p.ra) (lowWord p.rb)) :=
  ⟨rfl, rfl, rfl, rfl⟩

theorem divwu_variantsShow (p : Ports) :
    VariantsShow .divwu .divwuRc .divwuo .divwuoRc p .w32 (plainBase .w32 .unsigned (lowWord p.ra) (lowWord p.rb)) :=
  ⟨rfl, rfl, rfl, rfl⟩

/-- An unsigned quotient is a quotient of natural numbers (R71). -/
theorem readInt_unsigned_eq_tdiv_iff {W : Nat} {v n d : BitVec W} :
    readInt .unsigned v = (readInt .unsigned n).tdiv (readInt .unsigned d) ↔ v.toNat = n.toNat / d.toNat := by
  simp only [readInt_unsigned, ← Int.ofNat_tdiv, Int.natCast_inj]

/-- At 32 bits the record forms compare the quotient itself, not its extension on `rt` (R101, R151). -/
theorem comparedValue_zext64_half (v : HalfWord) : comparedValue (zext64 v) .w32 = v.toInt := by
  rw [comparedValue_w32, lowWord_zext64_half]

/-- Settles O26: off the edge the quotient is judged by the signed 32-bit range. -/
theorem divdDeliversSignedQuotient : Obligations.DivdDeliversSignedQuotient := by
  refine ⟨⟨rfl, rfl, rfl, rfl⟩, fun s => ?_⟩
  refine (plain_delivers (by decide) (divd_variantsShow s.ports) (isEdge_signed_iff_patterns (by decide))).imp_right
    fun deliver offEdge => ?_
  obtain ⟨v, value, delivers, -⟩ := deliver offEdge
  rw [zext64_word, overflowComparator_false_signed, ← readInt_signed, value] at delivers
  exact ⟨v, value, delivers⟩

/-- Settles O27: off the edge the quotient is judged by the unsigned 32-bit range. -/
theorem divduDeliversUnsignedQuotient : Obligations.DivduDeliversUnsignedQuotient := by
  refine ⟨⟨rfl, rfl, rfl, rfl⟩, fun s => ?_⟩
  refine (plain_delivers (by decide) (divdu_variantsShow s.ports) isEdge_unsigned_iff).imp_right fun deliver nonzero => ?_
  obtain ⟨v, value, delivers, -⟩ := deliver nonzero
  rw [readInt_unsigned_eq_tdiv_iff] at value
  rw [zext64_word, overflowComparator_false_unsigned, value] at delivers
  exact ⟨v, value, delivers⟩

/-- Settles O28: at 32 bits U5 repeats the native bit, and the record forms compare the quotient before its extension. -/
theorem divwDeliversSignedQuotient : Obligations.DivwDeliversSignedQuotient := by
  refine ⟨⟨rfl, rfl, rfl, rfl⟩, fun s => ?_⟩
  refine (plain_delivers (by decide) (divw_variantsShow s.ports) (isEdge_signed_iff_patterns (by decide))).imp_right
    fun deliver offEdge => ?_
  obtain ⟨v, value, delivers, negative⟩ := deliver offEdge
  rw [comparedValue_zext64_half] at negative
  exact ⟨v, value, delivers, negative⟩

/-- Settles O29: as O28, where a quotient with bit 31 set is negative as a signed number (R102). -/
theorem divwuDeliversUnsignedQuotient : Obligations.DivwuDeliversUnsignedQuotient := by
  refine ⟨⟨rfl, rfl, rfl, rfl⟩, fun s => ?_⟩
  refine (plain_delivers (by decide) (divwu_variantsShow s.ports) isEdge_unsigned_iff).imp_right fun deliver nonzero => ?_
  obtain ⟨v, value, delivers, negative⟩ := deliver nonzero
  rw [comparedValue_zext64_half, BitVec.toInt_neg_iff] at negative
  exact ⟨v, readInt_unsigned_eq_tdiv_iff.1 value, delivers, fun large => negative (by omega)⟩

end Sys2Proof.Machine
end

section
/-!
PROOF. The modulo instructions (spec/45_modulo.md R140 to R145). Each shows the remainder of a divider unit at one width and
signedness and nothing else; so what a modulo instruction delivers, and how it recombines with the quotient of the same unit,
is said once for every width, and each instruction adds the patterns of its edge.
-/

namespace Sys2Proof.Machine

section Modulo
variable {i : Instr} {s : State} {W : Nat}

/-! ### The bare value -/

theorem deliversOnly_of_outputs {val : BitVec W} (shows : instrOutputs i s.ports = moduloOutputs val) :
    DeliversOnly i s (zext64 val) := by
  rw [DeliversOnly, exec_eq_settle, shows]
  rfl

/-- What a modulo instruction delivers, where `edge` names the edge condition of its unit. -/
theorem modulo_delivers {S : Signedness} {n d : BitVec W} {edge : Prop} (hW : 0 < W)
    (shows : instrOutputs i s.ports = moduloOutputs (divider S n d).r) (edge_iff : isEdge S n d = true ↔ edge) :
    (edge → DeliversOnly i s 0) ∧
    (¬ edge → ∃ v : BitVec W, readInt S v = (readInt S n).tmod (readInt S d) ∧ DeliversOnly i s (zext64 v)) := by
  have delivers := deliversOnly_of_outputs shows
  constructor
  · intro h
    have sentinel : (divider S n d).r = 0 := (divider_sentinel (by rw [divider_ovn, edge_iff.2 h])).2
    rwa [sentinel, zext64_zero] at delivers
  · intro h
    obtain ⟨-, -, -, -, value⟩ := divider_exact hW (Bool.eq_false_iff.2 (mt edge_iff.1 h))
    exact ⟨(divider S n d).r, value, delivers⟩

/-- An instruction that shows a bare value delivers it alone, and its divisor zero gives 0 (R144, R171). -/
theorem exists_deliversOnly_of_outputs {val : BitVec W} (shows : instrOutputs i s.ports = moduloOutputs val) :
    ∃ v, DeliversOnly i s v ∧ (divisorIsZero i.fields.width s.ports → v = 0) := by
  refine ⟨zext64 val, deliversOnly_of_outputs shows, fun zero => ?_⟩
  obtain ⟨value, -⟩ := zeroDivisorResult_instrOutputs zero
  rw [shows, moduloOutputs_rt] at value
  exact Option.some.inj value

end Modulo

theorem modsd_shows (p : Ports) : instrOutputs .modsd p = moduloOutputs (divider .signed p.ra p.rb).r := rfl

theorem modud_shows (p : Ports) : instrOutputs .modud p = moduloOutputs (divider .unsigned p.ra p.rb).r := rfl

theorem modsw_shows (p : Ports) : instrOutputs .modsw p = moduloOutputs (divider .signed (lowWord p.ra) (lowWord p.rb)).r := rfl

theorem moduw_shows (p : Ports) : instrOutputs .moduw p = moduloOutputs (divider .unsigned (lowWord p.ra) (lowWord p.rb)).r := rfl

/-- An unsigned remainder is a remainder of natural numbers (R71). -/
theorem readInt_unsigned_eq_tmod_iff {W : Nat} {v n d : BitVec W} :
    readInt .unsigned v = (readInt .unsigned n).tmod (readInt .unsigned d) ↔ v.toNat = n.toNat % d.toNat := by
  simp only [readInt_unsigned, ← Int.ofNat_tmod, Int.natCast_inj]

/-- Settles O34: off the edge the remainder is what the truncated quotient leaves. -/
theorem modsdDeliversSignedRemainder : Obligations.ModsdDeliversSignedRemainder := by
  refine ⟨rfl, fun s => ?_⟩
  refine (modulo_delivers (by decide) (modsd_shows s.ports) (isEdge_signed_iff_patterns (by decide))).imp_right
    fun deliver offEdge => ?_
  obtain ⟨v, value, delivers⟩ := deliver offEdge
  rw [zext64_word] at delivers
  exact ⟨v, value.trans (tmod_eq_sub _ _), delivers⟩

/-- Settles O35: the one edge is a zero divisor, and the remainder is one of natural numbers. -/
theorem modudDeliversUnsignedRemainder : Obligations.ModudDeliversUnsignedRemainder := by
  refine ⟨rfl, fun s => ?_⟩
  refine (modulo_delivers (by decide) (modud_shows s.ports) isEdge_unsigned_iff).imp_right fun deliver nonzero => ?_
  obtain ⟨v, value, delivers⟩ := deliver nonzero
  rw [zext64_word] at delivers
  exact ⟨v, readInt_unsigned_eq_tmod_iff.1 value, delivers⟩

/-- Settles O36: as O34 on the low halves, with the remainder left zero-extended. -/
theorem modswDeliversSignedRemainder : Obligations.ModswDeliversSignedRemainder := by
  refine ⟨rfl, fun s => ?_⟩
  refine (modulo_delivers (by decide) (modsw_shows s.ports) (isEdge_signed_iff_patterns (by decide))).imp_right
    fun deliver offEdge => ?_
  obtain ⟨v, value, delivers⟩ := deliver offEdge
  exact ⟨v, value.trans (tmod_eq_sub _ _), delivers⟩

/-- Settles O37: as O35 on the low halves, with the remainder left zero-extended. -/
theorem moduwDeliversUnsignedRemainder : Obligations.ModuwDeliversUnsignedRemainder := by
  refine ⟨rfl, fun s => ?_⟩
  refine (modulo_delivers (by decide) (moduw_shows s.ports) isEdge_unsigned_iff).imp_right fun deliver nonzero => ?_
  obtain ⟨v, value, delivers⟩ := deliver nonzero
  exact ⟨v, readInt_unsigned_eq_tmod_iff.1 value, delivers⟩

/-- Settles O41: each modulo instruction shows a bare value; a code of kind `10` with a variant bit is reserved by its fields. -/
theorem moduloCarriesOnlyItsValue : Obligations.ModuloCarriesOnlyItsValue := by
  constructor
  · intro i s modulo
    simp only [List.mem_cons, List.not_mem_nil, or_false] at modulo
    obtain rfl | rfl | rfl | rfl := modulo
    · exact exists_deliversOnly_of_outputs (modsd_shows s.ports)
    · exact exists_deliversOnly_of_outputs (modud_shows s.ports)
    · exact exists_deliversOnly_of_outputs (modsw_shows s.ports)
    · exact exists_deliversOnly_of_outputs (moduw_shows s.ports)
  · intro op kind variant
    exact (decode_moduloVariant_iff op).2 ⟨(selectFields_kind_iff op .modulo).2 kind, variant⟩

/-! ### The plain divide and the modulo of the same operands -/

section Recombine
variable {i : Instr} {s : State} {W : Nat}

theorem delivers_quotient {dotted reporting both : Instr} {L : Width} {S : Signedness} {n d : BitVec W}
    (variants : VariantsShow i dotted reporting both s.ports L (plainBase L S n d)) :
    Delivers i s (zext64 (divider S n d).q) := by
  obtain ⟨delivers, -⟩ := fourDeliver_of_variantsShow variants
  exact delivers

theorem delivers_remainder {S : Signedness} {n d : BitVec W}
    (shows : instrOutputs i s.ports = moduloOutputs (divider S n d).r) : Delivers i s (zext64 (divider S n d).r) :=
  delivers_of_outputs (congrArg Outputs.rt shows)

theorem mul_nonneg_of_same_sign {r a : Int} (pos : 0 ≤ a → 0 ≤ r) (neg : a ≤ 0 → r ≤ 0) : 0 ≤ r * a := by
  obtain ha | ha := Int.le_total 0 a
  · exact Int.mul_nonneg (pos ha) ha
  · exact Int.mul_nonneg_of_nonpos_of_nonpos (neg ha) ha

/-- R145 for a signed unit of any width: the sentinels on the edge, the laws of R77 off it. -/
theorem signedDivider_recombines (hW : 0 < W) (n d : BitVec W) :
    let u := divider .signed n d
    if d.toInt = 0 ∨ (n.toInt = minInt W ∧ d.toInt = -1) then u.q = 0 ∧ u.r = 0
    else n.toInt = u.q.toInt * d.toInt + u.r.toInt ∧ |u.r.toInt| < |d.toInt| ∧ 0 ≤ u.r.toInt * n.toInt := by
  intro u
  have ovn_iff : u.ovn = true ↔ d.toInt = 0 ∨ (n.toInt = minInt W ∧ d.toInt = -1) := by
    rw [divider_ovn, isEdge_signed_iff, ← readInt_eq_zero_iff (S := .signed), readInt_signed]
  split
  next edge => exact divider_sentinel (ovn_iff.2 edge)
  next offEdge =>
    obtain ⟨identity, below, -, pos, neg, -⟩ := signedDivider_laws hW (Bool.eq_false_iff.2 (mt ovn_iff.1 offEdge))
    exact ⟨identity, below, mul_nonneg_of_same_sign pos neg⟩

/-- R145 for an unsigned unit of any width. -/
theorem unsignedDivider_recombines (hW : 0 < W) (n d : BitVec W) :
    let u := divider .unsigned n d
    if d.toNat = 0 then u.q = 0 ∧ u.r = 0 else n.toNat = u.q.toNat * d.toNat + u.r.toNat ∧ u.r.toNat < d.toNat := by
  intro u
  have ovn_iff : u.ovn = true ↔ d.toNat = 0 := by
    rw [divider_ovn, isEdge_unsigned_iff, ← readInt_eq_zero_iff (S := .unsigned), readInt_unsigned, Int.natCast_eq_zero]
  split
  next edge => exact divider_sentinel (ovn_iff.2 edge)
  next offEdge =>
    obtain ⟨identity, below, -⟩ := unsignedDivider_laws hW (Bool.eq_false_iff.2 (mt ovn_iff.1 offEdge))
    exact ⟨identity, below⟩

end Recombine

/-- Settles O42: a plain divide and a modulo of one width and signedness deliver the two results of one unit, which recombine. -/
theorem divideAndModuloRecombine : Obligations.DivideAndModuloRecombine := by
  intro s
  have divd := delivers_quotient (divd_variantsShow s.ports)
  have modsd := delivers_remainder (modsd_shows s.ports)
  have divdu := delivers_quotient (divdu_variantsShow s.ports)
  have modud := delivers_remainder (modud_shows s.ports)
  rw [zext64_word] at divd modsd divdu modud
  exact ⟨_, _, _, _, _, _, _, _,
    ⟨divd, modsd, divdu, modud,
      delivers_quotient (divw_variantsShow s.ports), delivers_remainder (modsw_shows s.ports),
      delivers_quotient (divwu_variantsShow s.ports), delivers_remainder (moduw_shows s.ports)⟩,
    signedDivider_recombines (by decide) _ _, unsignedDivider_recombines (by decide) _ _,
    signedDivider_recombines (by decide) _ _, unsignedDivider_recombines (by decide) _ _⟩

end Sys2Proof.Machine
end

section
/-!
PROOF. The dispatch (spec/46_dispatch.md R150 to R158). One evaluation runs the instruction `op` names or fails the lookup, and
every instruction shows one base result of its `K`, `L` and `S` with the fields of its `OE` and `Rc`. The statements about fields,
variants and the legacy view are read off these two facts.
-/

namespace Sys2Proof

/-! ### A table word as a value of the port -/

theorem selectOfNat_eq_some_iff {w : Nat} {op : Select} : selectOfNat w = some op ↔ w < 2 ^ 6 ∧ BitVec.ofNat 6 w = op := by
  rw [selectOfNat, Option.ite_none_right_eq_some, Option.some_inj]

theorem decodeTableWord_eq_some_iff {nbits w : Nat} {i : Instr} :
    decodeTableWord nbits w = some i ↔ ∃ op, selectOfNat w = some op ∧ decode op = .instr i := by
  unfold decodeTableWord
  cases selectOfNat w with
  | none => simp
  | some op => cases hd : decode op <;> simp [hd]

/-- A table word that decodes is the code of its instruction, on the six wires of `op` (R49, R50). -/
theorem ofNat_eq_encode_of_decodeTableWord {nbits w : Nat} {i : Instr} (h : decodeTableWord nbits w = some i) :
    BitVec.ofNat 6 w = encode i := by
  obtain ⟨op, hop, hd⟩ := decodeTableWord_eq_some_iff.1 h
  obtain ⟨-, rfl⟩ := selectOfNat_eq_some_iff.1 hop
  exact (encode_of_decode hd).symm

/-- A modulo has no reporting form (R55). -/
theorem reports_eq_false_of_modulo {i : Instr} (modulo : i.fields.kind = .modulo) : i.fields.reports = false := by
  have bare : i.fields.reports = false ∧ i.fields.record = false := by
    simpa [modulo] using (wf_iff_kind i.fields).1 (wf_fields i)
  exact bare.1

end Sys2Proof

namespace Sys2Proof.Machine

/-! ### The step by what `op` names -/

theorem withFetchWord_eq_of_decodeTableWord {nbits w : Nat} {i : Instr} (s : State) (h : decodeTableWord nbits w = some i) :
    s.withFetchWord nbits w = { s with ports := { s.ports with op := encode i } } := by
  rw [State.withFetchWord, State.driveSelect, ofNat_eq_encode_of_decodeTableWord h]

/-- Settles O5: the step looks up `op` and calls `exec`; the word on `op` is the code of the instruction it decodes to. -/
theorem stepRunsDecodedInstruction : Obligations.StepRunsDecodedInstruction := by
  refine ⟨fun s i => step_of_instr, fun s nbits w i h => ⟨step_of_instr ?_, withFetchWord_eq_of_decodeTableWord s h⟩⟩
  rw [withFetchWord_op, ofNat_eq_encode_of_decodeTableWord h, decode_encode]

/-- Settles O6: the step settles the lookup failure, in which every field is absent. -/
theorem reservedCodeFailsLookup : Obligations.ReservedCodeFailsLookup := by
  intro s why hd
  rw [step_of_reserved hd, settle_eq, lookupFailureOutputs]

section LookupFail
variable {s t : State}

/-- An instruction never fails the lookup and always has a value on `rt` (R151). -/
theorem instrOutputs_lookupFail_and_rt (i : Instr) (p : Ports) :
    (instrOutputs i p).lookupFail = false ∧ ∃ v, (instrOutputs i p).rt = some v := by
  obtain ⟨found, -, -, -, -, -, -, -, -, -, v, hv, -⟩ := outputsShape_instrOutputs i p
  exact ⟨found, v, hv⟩

theorem lookupFail_iff_reserved_of_step (h : step s = .next t) :
    t.out.lookupFail = true ↔ ∃ why, decode s.ports.op = .reserved why := by
  obtain ⟨i, hd, rfl⟩ | ⟨why, hd, rfl⟩ := step_cases h
  · simp [hd, (instrOutputs_lookupFail_and_rt i s.ports).1]
  · simp [hd]

theorem lookupFail_iff_rt_absent_of_step (h : step s = .next t) : t.out.lookupFail = true ↔ t.out.rt = none := by
  obtain ⟨i, -, rfl⟩ | ⟨why, -, rfl⟩ := step_cases h
  · obtain ⟨found, v, hv⟩ := instrOutputs_lookupFail_and_rt i s.ports
    simp [found, hv]
  · simp

end LookupFail

/-- Settles O7: whether a step fails the lookup is whether `op` is a reserved code, which two states with one `op` share. -/
theorem lookupFailDependsOnSelectAlone : Obligations.LookupFailDependsOnSelectAlone := by
  constructor
  · intro s
    have next := step_eq_settle s
    exact ⟨_, next, lookupFail_iff_reserved_of_step next, lookupFail_iff_rt_absent_of_step next⟩
  · intro s u t v hs hu sameOp
    rw [Bool.eq_iff_iff, lookupFail_iff_reserved_of_step hs, lookupFail_iff_reserved_of_step hu, sameOp]

/-! ### The fields an instruction fills -/

theorem upper_half_eq_zero {v : Word} (h : v.toNat < 2 ^ 32) : v.extractLsb' 32 32 = 0#32 := by
  apply BitVec.eq_of_toNat_eq
  rw [BitVec.extractLsb'_toNat, Nat.shiftRight_eq_div_pow, Nat.div_eq_of_lt h]
  rfl

/-- Settles O38: the clauses are the presences of `OutputsShape`. -/
theorem eachInstructionFillsItsFields : Obligations.EachInstructionFillsItsFields := by
  intro i s
  obtain ⟨found, ov, cr0, cr1, cr2, cr3, cr4, cr5, cr6, cr7, v, hv, upper, -⟩ := outputsShape_instrOutputs i s.ports
  exact ⟨instrOutputs i s.ports, v, exec_eq_settle i s, found, hv, fun hw => upper_half_eq_zero (upper hw), ov, cr0,
    cr1, cr2, cr3, cr4, cr5, cr6, cr7⟩

/-! ### One base result for the variants of an operation -/

/-- The base result of a unit as it stands on the 64-bit ports: the value widened (R151), the pair of U5. -/
def unitResult {W : Nat} (k : Kind) (L : Width) (S : Signedness) (n d : BitVec W) : BaseResult 64 :=
  let e := unitOperation k S n d
  { val := zext64 e.q, ovp := overflowComparator e.ovn (zext64 e.q) L S }

/-- The base result of the operation that `K`, `L` and `S` choose, on the operands at its width (R21). -/
def baseResult (k : Kind) (L : Width) (S : Signedness) (p : Ports) : BaseResult 64 :=
  match L with
  | .w64 => unitResult k .w64 S p.ra p.rb
  | .w32 => unitResult k .w32 S (lowWord p.ra) (lowWord p.rb)

/-- `OE` and `Rc` choose the fields that are shown, and nothing of the base result (R150, R155). -/
theorem instrOutputs_eq_divideOutputs (i : Instr) (p : Ports) : instrOutputs i p =
    divideOutputs i.fields.width i.fields.reports i.fields.record (baseResult i.fields.kind i.fields.width i.fields.sign p) := by
  rw [instrOutputs_eq_fieldOutputs]
  unfold fieldOutputs baseResult
  cases hw : i.fields.width with
  | w64 | w32 => simp only [unitOutputs, unitResult, divideOutputs, zext64_word, hw]

section Fields
variable {i : Instr} {p : Ports}

theorem instrOutputs_rt (i : Instr) (p : Ports) :
    (instrOutputs i p).rt = some (baseResult i.fields.kind i.fields.width i.fields.sign p).val := by
  rw [instrOutputs_eq_divideOutputs, divideOutputs_rt, zext64_word]

theorem instrOutputs_ov (i : Instr) (p : Ports) : (instrOutputs i p).ov =
    if i.fields.reports then some (baseResult i.fields.kind i.fields.width i.fields.sign p).ovp else none := by
  rw [instrOutputs_eq_divideOutputs, divideOutputs_ov]

theorem instrOutputs_ov_eq_some_iff {g : OverflowFlags} : (instrOutputs i p).ov = some g ↔
    i.fields.reports = true ∧ (baseResult i.fields.kind i.fields.width i.fields.sign p).ovp = g := by
  rw [instrOutputs_eq_divideOutputs, divideOutputs_ov_eq_some_iff]

theorem instrOutputs_ov_eq_none_iff : (instrOutputs i p).ov = none ↔ i.fields.reports = false := by
  rw [instrOutputs_ov]
  cases i.fields.reports <;> simp

theorem instrOutputs_cr0_eq_some_iff {c : ConditionRegister} : (instrOutputs i p).cr0 = some c ↔
    i.fields.record = true ∧
      conditionRegisterEncoder (baseResult i.fields.kind i.fields.width i.fields.sign p).val i.fields.width
        (i.fields.reports && (baseResult i.fields.kind i.fields.width i.fields.sign p).ovp.overflow) = c := by
  rw [instrOutputs_eq_divideOutputs, divideOutputs_cr0_eq_some_iff, zext64_word]

end Fields

/-- Settles O39: `so_in` is `OE` and the overflow of the base result, whose pair is on the ports when `OE = 1`. -/
theorem recordSlotFollowsResult : Obligations.RecordSlotFollowsResult := by
  intro i s hrecord
  refine ⟨_, _, exec_eq_settle i s, rfl, instrOutputs_rt i s.ports, fun silent => ⟨?noPair, ?clear⟩, fun reporting =>
    ⟨_, instrOutputs_ov_eq_some_iff.2 ⟨reporting, rfl⟩, ?own⟩⟩
  case noPair => exact instrOutputs_ov_eq_none_iff.2 silent
  case clear => exact instrOutputs_cr0_eq_some_iff.2 ⟨hrecord, by rw [silent, Bool.false_and]⟩
  case own => exact instrOutputs_cr0_eq_some_iff.2 ⟨hrecord, by rw [reporting, Bool.true_and]⟩

/-- Settles O40: the two variants show one base result, and their slots differ in `so_in` alone. -/
theorem variantsAgreeOnSharedFields : Obligations.VariantsAgreeOnSharedFields := by
  intro i j s kind width sign
  have same : baseResult i.fields.kind i.fields.width i.fields.sign s.ports =
      baseResult j.fields.kind j.fields.width j.fields.sign s.ports := by rw [kind, width, sign]
  refine ⟨_, _, exec_eq_settle i s, exec_eq_settle j s, ?value, ?pair, ?slot⟩
  case value => rw [settle_out, settle_out, instrOutputs_rt, instrOutputs_rt, same]
  case pair =>
    intro g g' hg hg'
    obtain ⟨-, rfl⟩ := instrOutputs_ov_eq_some_iff.1 hg
    obtain ⟨-, rfl⟩ := instrOutputs_ov_eq_some_iff.1 hg'
    rw [same]
  case slot =>
    intro c c' hc hc'
    obtain ⟨-, rfl⟩ := instrOutputs_cr0_eq_some_iff.1 hc
    obtain ⟨-, rfl⟩ := instrOutputs_cr0_eq_some_iff.1 hc'
    rw [same, width]
    refine ⟨rfl, rfl, rfl, fun g hg hnone => ?_⟩
    obtain ⟨reporting, rfl⟩ := instrOutputs_ov_eq_some_iff.1 hg
    have silent := instrOutputs_ov_eq_none_iff.1 hnone
    rw [encoder_so, encoder_so, reporting, silent, same]
    exact ⟨Bool.true_and _, Bool.false_and _⟩

/-! ### The legacy view -/

theorem step_drive_encode (s : State) (i : Instr) (ra rb rc : Word) :
    step (s.drive { op := encode i, ra := ra, rb := rb, rc := rc }) =
      .next (s.drive { op := encode i, ra := ra, rb := rb, rc := rc } |>.settle
        (instrOutputs i { op := encode i, ra := ra, rb := rb, rc := rc })) := by
  rw [step_of_instr (decode_encode i), exec_eq_settle, drive_ports]

/-- The view renames the value and the pair of the instruction's own outputs (R158). -/
theorem evaluateDiv_eq_some_iff {i : Instr} {x : DivInput} {r : DivResult} : evaluateDiv i x = some r ↔
    inLegacyView i = true ∧ (instrOutputs i (legacyPorts i x)).rt = some r.value ∧
      (instrOutputs i (legacyPorts i x)).ov = r.flags := by
  rw [evaluateDiv, Option.ite_none_right_eq_some, legacyPorts, step_drive_encode]
  dsimp only [settle_out]
  rw [legacyResult, instrOutputs_rt, Option.some_inj, Option.some_inj, DivResult.mk.injEq]

theorem evaluateDiv_isSome_iff (i : Instr) (x : DivInput) : (evaluateDiv i x).isSome = true ↔ inLegacyView i = true := by
  simp only [Option.isSome_iff_exists, evaluateDiv_eq_some_iff]
  constructor
  · rintro ⟨r, view, -⟩
    exact view
  · intro view
    exact ⟨⟨_, _⟩, view, instrOutputs_rt i _, rfl⟩

/-- The twelve mnemonics of R158, in the order of R56. -/
theorem filter_inLegacyView : Instr.all.filter inLegacyView =
    [Instr.divdo, .divduo, .divwo, .divwuo, .divdeo, .divdeuo, .divweo, .divweuo, .modsd, .modud, .modsw, .moduw] := rfl

/-- In the view a mnemonic either reports the pair or is a modulo (R158). -/
theorem reports_eq_false_iff_modulo_of_inLegacyView {i : Instr} (view : inLegacyView i = true) :
    i.fields.reports = false ↔ i.fields.kind = .modulo := by
  refine ⟨fun silent => ?_, reports_eq_false_of_modulo⟩
  rw [inLegacyView, silent, Bool.false_or, Bool.and_eq_true, beq_iff_eq] at view
  exact view.2

/-- Settles O44: the view is `instrOutputs` at the renamed ports, which is what the step shows from any state. -/
theorem legacyViewIsTheSameEvaluation : Obligations.LegacyViewIsTheSameEvaluation := by
  constructor
  · intro i x
    rw [evaluateDiv_isSome_iff, ← filter_inLegacyView, List.mem_filter]
    exact (and_iff_right (mem_all i)).symm
  · intro i x r s h
    obtain ⟨view, value, flags⟩ := evaluateDiv_eq_some_iff.1 h
    refine ⟨_, step_drive_encode s i _ _ _, value, flags, ?_⟩
    rw [← flags, instrOutputs_ov_eq_none_iff, reports_eq_false_iff_modulo_of_inLegacyView view]

/-! ### What a session shows -/

/-- Every evaluation gives a legal bundle: the lookup failure, or the shape of the instruction's own fields (R150, R156). -/
theorem legalOutputs_portOutputs (p : Ports) : LegalOutputs (portOutputs p.op p.ra p.rb) := by
  cases hd : decode p.op with
  | instr i =>
    rw [portOutputs_of_instr hd]
    exact .inr ⟨i.fields, wf_fields i, outputsShape_instrOutputs i p⟩
  | reserved why => exact .inl (portOutputs_of_reserved hd)

/-- Settles O49: every result of a session is `portOutputs` of the ports it was asked with. -/
theorem sessionsShowOnlyLegalOutputs : Obligations.SessionsShowOnlyLegalOutputs := by
  intro s ps o ho
  rw [session_eq_map] at ho
  obtain ⟨p, -, rfl⟩ := List.mem_map.1 ho
  exact legalOutputs_portOutputs p

end Sys2Proof.Machine
end

section
/-!
PROOF. The abnormal outcomes (spec/60_exceptions.md R171). A zero divisor, signed `MIN_W` by -1 and an extended quotient that does
not fit have one effect on a unit, at every width: the value 0, and overflow from every divide. The assembly turns that into
`rt = 0` and both overflow bits, once for all 36 instructions.
-/

namespace Sys2Proof.Machine

section Unit
variable {W : Nat} {k : Kind} {S : Signedness} {n d : BitVec W}

/-! ### The effect on a unit -/

/-- The operation of kind `k` gives the value 0, and a divide overflows. -/
def GivesSentinel (k : Kind) (S : Signedness) (n d : BitVec W) : Prop :=
  (unitOperation k S n d).q = 0 ∧ (k = .plainDivide ∨ k = .extendedDivide → (unitOperation k S n d).ovn = true)

theorem givesSentinel_of_ovn (h : (unitOperation k S n d).ovn = true) : GivesSentinel k S n d :=
  ⟨unitOperation_sentinel h, fun _ => h⟩

/-- `MIN_W` is not smaller in magnitude than -1, so its extended quotient is beyond the range as well (R113). -/
theorem extended_ovn_of_minInt_by_neg_one (hn : n.toInt = minInt W) (hd : d.toInt = -1) :
    (extendedDivisionQuotientSentinel .signed n d).ovn = true := by
  have nonzero : d ≠ 0 := by
    rintro rfl
    simp at hd
  apply extended_overflows_of_abs_le nonzero
  rw [hn, hd, minInt, abs_neg, abs_neg, abs_one, abs_of_pos (by positivity)]
  exact one_le_pow₀ one_le_two

/-- Signed `MIN_W` by -1 is on the edge of the dividers and lost by U7 (R72, R111). -/
theorem givesSentinel_intMin_by_allOnes (k : Kind) (hW : 0 < W) (hn : n = BitVec.intMin W) (hd : d = BitVec.allOnes W) :
    GivesSentinel k .signed n d := by
  have edge : (divider .signed n d).ovn = true := by
    rw [divider_ovn]
    exact (isEdge_signed_iff_patterns hW).2 (.inr ⟨hn, hd⟩)
  cases k with
  | plainDivide => exact givesSentinel_of_ovn edge
  | extendedDivide =>
    exact givesSentinel_of_ovn
      (extended_ovn_of_minInt_by_neg_one ((toInt_eq_minInt_iff hW).2 hn) ((toInt_eq_neg_one_iff hW).2 hd))
  | modulo => exact ⟨(divider_sentinel edge).2, by simp⟩
  | reserved => exact ⟨rfl, by simp⟩

/-- A signed extended quotient out of the range of R111. -/
theorem givesSentinel_extended_signed
    (lost : extendedQuotient .signed n d < -2 ^ (W - 1) ∨ 2 ^ (W - 1) - 1 < extendedQuotient .signed n d) :
    GivesSentinel .extendedDivide .signed n d :=
  givesSentinel_of_ovn (extended_ovn_signed_iff.2 (.inr lost))

/-- An unsigned extended quotient out of the range of R111. -/
theorem givesSentinel_extended_unsigned (lost : 2 ^ W - 1 < n.toNat * 2 ^ W / d.toNat) :
    GivesSentinel .extendedDivide .unsigned n d := by
  apply givesSentinel_of_ovn
  rw [unitOperation, ← Bool.not_eq_false, extended_ovn_eq_false_iff, extendedQuotient_fits_unsigned_iff]
  exact fun ⟨_, fits⟩ => lost.not_ge fits

end Unit

/-! ### The effect on the output fields -/

/-- The result of R171 does not ask why a unit gave its sentinel. -/
theorem zeroDivisorResult_of_givesSentinel {W : Nat} {f : SelectFields} (hwf : f.wf = true) {n d : BitVec W}
    (sentinel : GivesSentinel f.kind f.sign n d) : ZeroDivisorResult (unitOutputs f n d) := by
  obtain ⟨value, overflows⟩ := sentinel
  refine ⟨?rt, fun g hg => ?pair⟩
  case rt => rw [unitOutputs, divideOutputs_rt, value, zext64_zero]
  case pair =>
    obtain ⟨hreports, rfl⟩ := divideOutputs_ov_eq_some_iff.1 hg
    dsimp only
    rw [overflows (divide_of_wf_of_reports hwf hreports), overflowComparator_true]

section Instruction
variable {i : Instr} {p : Ports} {k : Kind} {S : Signedness}

theorem zeroDivisorResult_of_word_operands (width : i.fields.width = .w64) (kind : i.fields.kind = k)
    (sign : i.fields.sign = S) (sentinel : GivesSentinel k S p.ra p.rb) : ZeroDivisorResult (instrOutputs i p) := by
  subst kind sign
  rw [instrOutputs_eq_fieldOutputs, fieldOutputs, width]
  exact zeroDivisorResult_of_givesSentinel (wf_fields i) sentinel

theorem zeroDivisorResult_of_half_operands (width : i.fields.width = .w32) (kind : i.fields.kind = k)
    (sign : i.fields.sign = S) (sentinel : GivesSentinel k S (lowWord p.ra) (lowWord p.rb)) :
    ZeroDivisorResult (instrOutputs i p) := by
  subst kind sign
  rw [instrOutputs_eq_fieldOutputs, fieldOutputs, width]
  exact zeroDivisorResult_of_givesSentinel (wf_fields i) sentinel

end Instruction

/-- An abnormal outcome is an ordinary result: it completes with the ports unchanged (R171, R172). -/
theorem completes_of_zeroDivisorResult {i : Instr} {s : State} (result : ZeroDivisorResult (instrOutputs i s.ports)) :
    ∃ t, exec i s = .next t ∧ t.ports = s.ports ∧ t.out.rt = some 0 ∧
      ∀ g, t.out.ov = some g → g = { overflow := true, overflow32 := true } :=
  ⟨s.settle (instrOutputs i s.ports), exec_eq_settle i s, rfl, result⟩

/-- Settles O43: each clause is its effect on a unit, at the width and signedness of the instruction. -/
theorem divisionByZeroIsAnOrdinaryResult : Obligations.DivisionByZeroIsAnOrdinaryResult := by
  refine ⟨fun i s zero => ?zeroDivisor, fun i s signed patterns => ?minByNegOne, fun i s extended lost => ?lostQuotient⟩ <;>
    apply completes_of_zeroDivisorResult
  case zeroDivisor => exact zeroDivisorResult_instrOutputs zero
  case minByNegOne =>
    cases width : i.fields.width with
    | w64 =>
      rw [width] at patterns
      obtain ⟨hn, hd⟩ := patterns
      exact zeroDivisorResult_of_word_operands width rfl signed (givesSentinel_intMin_by_allOnes _ (by decide) hn hd)
    | w32 =>
      rw [width] at patterns
      obtain ⟨hn, hd⟩ := patterns
      exact zeroDivisorResult_of_half_operands width rfl signed (givesSentinel_intMin_by_allOnes _ (by decide) hn hd)
  case lostQuotient =>
    cases width : i.fields.width with
    | w64 =>
      cases sign : i.fields.sign <;> rw [width, sign] at lost
      case signed => exact zeroDivisorResult_of_word_operands width extended sign (givesSentinel_extended_signed lost)
      case unsigned => exact zeroDivisorResult_of_word_operands width extended sign (givesSentinel_extended_unsigned lost)
    | w32 =>
      cases sign : i.fields.sign <;> rw [width, sign] at lost
      case signed => exact zeroDivisorResult_of_half_operands width extended sign (givesSentinel_extended_signed lost)
      case unsigned => exact zeroDivisorResult_of_half_operands width extended sign (givesSentinel_extended_unsigned lost)

end Sys2Proof.Machine
end
